-- ==== Sys2Proof/Word.lean ====
section
/-! DEFINITION. The plain value types of the machine: bytes, 16-bit words, register numbers, the
operand fields of an instruction word (00_scope.md R5, 30_encoding.md R91, R93). -/

namespace Sys2Proof

/-- An 8-bit value: a general register, a memory byte, an `NN` immediate, a timer (R20, R60, R93). -/
abbrev Byte := BitVec 8

/-- A 16-bit value: an instruction word, `pc`, `I`, a return address (R22, R23, R24, R90). -/
abbrev Word := BitVec 16

/-- A register number, the value of an `X` or `Y` field; every value 0..15 is valid (R20, R93). -/
abbrev Reg := Fin 16

/-- The 4-bit operand `N` of draw-sprite, a row count 0..15 (R91, R93). -/
abbrev Nibble := BitVec 4

/-- The 12-bit operand `NNN` (R91, R93). -/
abbrev Addr12 := BitVec 12

end Sys2Proof
end

