-- ==== Sys2Proof/Config.lean ====
section
/-! DEFINITION. The parameters of 00_scope.md R4 that are plain sizes and addresses, and the one free
value of the model, the random byte. (The font table, also a parameter, stands in Machine/Font.lean.) -/

namespace Sys2Proof.Config

/-- MEM_SIZE of R4: 4096 bytes, so the highest valid address ADDR_MAX is 0xFFF. -/
abbrev memSize : Nat := 4096

/-- FONT_BASE of R4. -/
abbrev fontBase : Nat := 0x050

/-- The length of the font, FONT_GLYPHS x FONT_GLYPH_BYTES of R4. -/
abbrev fontLen : Nat := 80

/-- PROG_BASE of R4: where images are loaded and where the first instruction is fetched (R291). -/
abbrev progBase : Nat := 0x200

/-- IMAGE_MAX of R4: the largest image, in bytes. -/
abbrev imageMax : Nat := 3584

/-- STACK_DEPTH of R4. -/
abbrev stackDepth : Nat := 16

/-- DISP_W of R4. -/
abbrev displayWidth : Nat := 64

/-- DISP_W x DISP_H of R4: the number of pixels. -/
abbrev displaySize : Nat := 2048

/-- FLAG_REG of R4: the general register that six instructions write as a flag (R21). -/
abbrev flagReg : Reg := 15

/-- RNG of R4, the byte `rnd` of R33: "an input with no law: any of 0..255 at every step". A FREE VALUE
(DESIGN CHOICE of form, log entry 1; safe): the function has no body, so nothing can be proved of any byte
it gives. It is applied to the number of bytes drawn before (`State.draws`), so no two draws are linked. -/
opaque rnd : Nat → Byte

end Sys2Proof.Config
end

