-- ==== Sys2Proof/Syntax.lean ====
section
/-! DEFINITION. The 34 instructions of spec/opcode_table.json, one constructor per row, in the table's
order. Operands are typed so that every term is an instruction the spec admits (30_encoding.md R93:
"every value is a valid index"). -/

namespace Sys2Proof

/-- The instruction set (30_encoding.md R94 to R98). Register operands are named `x` and `y` as the fields
`X` and `Y` of R91, immediates `nn` and `nnn`, the row count `n`. Bits no rule reads (R99) are no part of
an instruction. -/
inductive Instr where
  /-- clear-screen, 0x00E0 (R210). -/
  | clearScreen
  /-- return, 0x00EE (R140). -/
  | ret
  /-- jump, 0x1NNN (R141). -/
  | jump (nnn : Addr12)
  /-- call, 0x2NNN (R142). -/
  | call (nnn : Addr12)
  /-- skip-if-equal-immediate, 0x3XNN (R143). -/
  | skipIfEqualImmediate (x : Reg) (nn : Byte)
  /-- skip-if-not-equal-immediate, 0x4XNN (R144). -/
  | skipIfNotEqualImmediate (x : Reg) (nn : Byte)
  /-- skip-if-registers-equal, 0x5XY0 (R145). -/
  | skipIfRegistersEqual (x y : Reg)
  /-- set-immediate, 0x6XNN (R160). -/
  | setImmediate (x : Reg) (nn : Byte)
  /-- add-immediate, 0x7XNN (R161). -/
  | addImmediate (x : Reg) (nn : Byte)
  /-- assign, 0x8XY0 (R162). -/
  | assign (x y : Reg)
  /-- or, 0x8XY1 (R163). -/
  | or (x y : Reg)
  /-- and, 0x8XY2 (R164). -/
  | and (x y : Reg)
  /-- xor, 0x8XY3 (R165). -/
  | xor (x y : Reg)
  /-- add, 0x8XY4 (R166). -/
  | add (x y : Reg)
  /-- subtract, 0x8XY5 (R167). -/
  | subtract (x y : Reg)
  /-- shift-right, 0x8XY6 (R168): the source is `y`. -/
  | shiftRight (x y : Reg)
  /-- subtract-reverse, 0x8XY7 (R169). -/
  | subtractReverse (x y : Reg)
  /-- shift-left, 0x8X0E (R170): the source is `x`. -/
  | shiftLeft (x : Reg)
  /-- skip-if-registers-not-equal, 0x9XY0 (R146). -/
  | skipIfRegistersNotEqual (x y : Reg)
  /-- set-index, 0xANNN (R190). -/
  | setIndex (nnn : Addr12)
  /-- jump-with-offset, 0xBNNN (R147). -/
  | jumpWithOffset (nnn : Addr12)
  /-- random-and, 0xCXNN (R171). -/
  | randomAnd (x : Reg) (nn : Byte)
  /-- draw-sprite, 0xDXYN (R211). -/
  | drawSprite (x y : Reg) (n : Nibble)
  /-- skip-if-key-pressed, 0xEX9E (R230). -/
  | skipIfKeyPressed (x : Reg)
  /-- skip-if-key-not-pressed, 0xEXA1 (R231). -/
  | skipIfKeyNotPressed (x : Reg)
  /-- get-delay-timer, 0xFX07 (R233). -/
  | getDelayTimer (x : Reg)
  /-- wait-for-key, 0xFX0A (R232). -/
  | waitForKey (x : Reg)
  /-- set-delay-timer, 0xFX15 (R234). -/
  | setDelayTimer (x : Reg)
  /-- set-sound-timer, 0xFX18 (R235). -/
  | setSoundTimer (x : Reg)
  /-- add-to-index, 0xFX1E (R191). -/
  | addToIndex (x : Reg)
  /-- load-font-address, 0xFX29 (R192). -/
  | loadFontAddress (x : Reg)
  /-- store-BCD, 0xFX33 (R193). -/
  | storeBCD (x : Reg)
  /-- store-registers, 0xFX55 (R194): the registers 0 to `x`. -/
  | storeRegisters (x : Reg)
  /-- load-registers, 0xFX65 (R195): the registers 0 to `x`. -/
  | loadRegisters (x : Reg)
deriving DecidableEq, Repr

end Sys2Proof
end

