-- ==== Sys2Proof/WellFormed.lean ====
section
/-! DEFINITION. The checks on input that the types do not make. A term of `Instr` is well formed by its
types alone (30_encoding.md R93: every value of every operand field is valid), so an instruction needs no
check; what can be ill formed is an instruction WORD that is not the canonical one (R99) and a program
IMAGE of a length the loader refuses (20_memory.md R71). -/

namespace Sys2Proof

/-- R99: "The canonical encodings an assembler emits put 0 in every ignored bit." Ignored are `w[11:8]` in
family 0x0, `w[3:0]` in families 0x5 and 0x9, and `w[7:4]` of shift-left. -/
def canonicalWord (w : Word) : Bool :=
  let family := w.extractLsb' 12 4
  if family = 0x0 then w.extractLsb' 8 4 = 0
  else if family = 0x5 ∨ family = 0x9 then w.extractLsb' 0 4 = 0
  else if family = 0x8 ∧ w.extractLsb' 0 4 = 0xE then w.extractLsb' 4 4 = 0
  else true

/-- R70, R71: a loadable image has 1 to 3584 bytes. -/
def imageLengthOk (len : Nat) : Bool :=
  decide (1 ≤ len ∧ len ≤ Config.imageMax)

end Sys2Proof
end

