-- ==== Sys2Proof/Decode.lean ====
section
/-! DEFINITION. Decoding (30_encoding.md R90 to R101): the fields of a word, the two-level lookup by family
and discriminator, the rejection of every other word by name, the encoder, and the opcode table itself as a
list of masks and patterns. -/

namespace Sys2Proof

/-! ## Fields (R91) -/

/-- The primary family `F = w[15:12]` (R91). -/
def fieldF (w : Word) : BitVec 4 := w.extractLsb' 12 4

/-- `X = w[11:8]` (R91; 90_conflicts.md C1). -/
def fieldX (w : Word) : Reg := (w.extractLsb' 8 4).toFin

/-- `Y = w[7:4]` (R91; 90_conflicts.md C1). -/
def fieldY (w : Word) : Reg := (w.extractLsb' 4 4).toFin

/-- `N = w[3:0]` (R91). -/
def fieldN (w : Word) : Nibble := w.extractLsb' 0 4

/-- `NN = w[7:0]` (R91). -/
def fieldNN (w : Word) : Byte := w.extractLsb' 0 8

/-- `NNN = w[11:0]` (R91). -/
def fieldNNN (w : Word) : Addr12 := w.extractLsb' 0 12

/-- The word of two bytes as fetch forms it: big-endian, the byte at the lower address is `w[15:8]` (R63). -/
def wordOfBytes (high low : Byte) : Word := high ++ low

/-- `w[15:8]`, the byte stored at the lower address (R5, R63). -/
def highByte (w : Word) : Byte := w.extractLsb' 8 8

/-- `w[7:0]`, the byte stored at the higher address (R5, R63). -/
def lowByte (w : Word) : Byte := w.extractLsb' 0 8

/-! ## Decode (R101) -/

/-- Why a word or a run of bytes is no instruction. The first four are R100's four kinds of unrecognized
word; the machine runs each as a reported no-op (R125), so none of them is a stop. -/
inductive Reject where
  /-- Family 0x0 with `NN` not in 0xE0, 0xEE (R95). -/
  | unrecognizedFamily0
  /-- Family 0x8 with `N` in 0x8..0xD or 0xF (R96). -/
  | unrecognizedFamily8
  /-- Family 0xE with `NN` not in 0x9E, 0xA1 (R97). -/
  | unrecognizedFamilyE
  /-- Family 0xF with `NN` not one of the nine of R98. -/
  | unrecognizedFamilyF
  /-- Fewer than two bytes: not a word at all (R90). Raised by `decodeBytes` only, never by a step. -/
  | tooFewBytes
deriving DecidableEq, Repr

/-- Family 0x0, by the low 8 bits (R95). -/
def decodeFamily0 (w : Word) : Except Reject Instr :=
  if fieldNN w = 0xE0 then .ok .clearScreen
  else if fieldNN w = 0xEE then .ok .ret
  else .error .unrecognizedFamily0

/-- Family 0x8, by the low 4 bits (R96). -/
def decodeFamily8 (w : Word) : Except Reject Instr :=
  let x := fieldX w
  let y := fieldY w
  if fieldN w = 0x0 then .ok (.assign x y)
  else if fieldN w = 0x1 then .ok (.or x y)
  else if fieldN w = 0x2 then .ok (.and x y)
  else if fieldN w = 0x3 then .ok (.xor x y)
  else if fieldN w = 0x4 then .ok (.add x y)
  else if fieldN w = 0x5 then .ok (.subtract x y)
  else if fieldN w = 0x6 then .ok (.shiftRight x y)
  else if fieldN w = 0x7 then .ok (.subtractReverse x y)
  else if fieldN w = 0xE then .ok (.shiftLeft x)
  else .error .unrecognizedFamily8

/-- Family 0xE, by the low 8 bits (R97). -/
def decodeFamilyE (w : Word) : Except Reject Instr :=
  if fieldNN w = 0x9E then .ok (.skipIfKeyPressed (fieldX w))
  else if fieldNN w = 0xA1 then .ok (.skipIfKeyNotPressed (fieldX w))
  else .error .unrecognizedFamilyE

/-- Family 0xF, by the low 8 bits (R98). -/
def decodeFamilyF (w : Word) : Except Reject Instr :=
  let x := fieldX w
  if fieldNN w = 0x07 then .ok (.getDelayTimer x)
  else if fieldNN w = 0x0A then .ok (.waitForKey x)
  else if fieldNN w = 0x15 then .ok (.setDelayTimer x)
  else if fieldNN w = 0x18 then .ok (.setSoundTimer x)
  else if fieldNN w = 0x1E then .ok (.addToIndex x)
  else if fieldNN w = 0x29 then .ok (.loadFontAddress x)
  else if fieldNN w = 0x33 then .ok (.storeBCD x)
  else if fieldNN w = 0x55 then .ok (.storeRegisters x)
  else if fieldNN w = 0x65 then .ok (.loadRegisters x)
  else .error .unrecognizedFamilyF

/-- R101: "Decode is a total function from the 65536 words to the 34 instructions plus `Unrecognized`"; the
family first, then the discriminator of the four families that have one (R94). Bits that no rule reads are
not looked at (R99). The numbers are the spec's decisions D2 to D4 (UNVERIFIED, log entry 9; unsafe if wrong). -/
def decode (w : Word) : Except Reject Instr :=
  let f := fieldF w
  if f = 0x0 then decodeFamily0 w
  else if f = 0x1 then .ok (.jump (fieldNNN w))
  else if f = 0x2 then .ok (.call (fieldNNN w))
  else if f = 0x3 then .ok (.skipIfEqualImmediate (fieldX w) (fieldNN w))
  else if f = 0x4 then .ok (.skipIfNotEqualImmediate (fieldX w) (fieldNN w))
  else if f = 0x5 then .ok (.skipIfRegistersEqual (fieldX w) (fieldY w))
  else if f = 0x6 then .ok (.setImmediate (fieldX w) (fieldNN w))
  else if f = 0x7 then .ok (.addImmediate (fieldX w) (fieldNN w))
  else if f = 0x8 then decodeFamily8 w
  else if f = 0x9 then .ok (.skipIfRegistersNotEqual (fieldX w) (fieldY w))
  else if f = 0xA then .ok (.setIndex (fieldNNN w))
  else if f = 0xB then .ok (.jumpWithOffset (fieldNNN w))
  else if f = 0xC then .ok (.randomAnd (fieldX w) (fieldNN w))
  else if f = 0xD then .ok (.drawSprite (fieldX w) (fieldY w) (fieldN w))
  else if f = 0xE then decodeFamilyE w
  else decodeFamilyF w

/-- Decoding from bytes as memory holds them: the first two form the word (R63, R90), and the rest is given
back. Total on any bytes. -/
def decodeBytes : List Byte → Except Reject (Instr × List Byte)
  | high :: low :: rest =>
    match decode (wordOfBytes high low) with
    | .ok i => .ok (i, rest)
    | .error r => .error r
  | _ => .error .tooFewBytes

/-- The bytes of a word as memory holds them, the high byte first (R63). -/
def bytesOfWord (w : Word) : List Byte := [highByte w, lowByte w]

/-- The host's question: the instruction the decoder reads from the bits `w` of an `nbits`-bit row of
spec/opcode_table.json. Every row is one 16-bit word (R90), whose bits the table numbers as R5 does; bits
from `nbits` on count as 0. The bytes are laid out as memory holds them. -/
def decodeTableWord (nbits w : Nat) : Option Instr :=
  match decodeBytes (bytesOfWord (BitVec.ofNat 16 (w % 2 ^ nbits))) with
  | .ok (i, _) => some i
  | .error _ => none

/-! ## Encode (R92, R94 to R98), the canonical words of R102 -/

/-- The 4 bits of a register number. -/
def regBits (r : Reg) : BitVec 4 := BitVec.ofFin r

/-- Format A: family and `NNN` (R92). -/
def wordA (f : BitVec 4) (nnn : Addr12) : Word := f ++ nnn

/-- Formats XI and XS: family, `X` and the low byte (R92). -/
def wordX (f : BitVec 4) (x : Reg) (nn : Byte) : Word := f ++ regBits x ++ nn

/-- Formats XY and XYN: family, `X`, `Y` and the low nibble (R92). -/
def wordXY (f : BitVec 4) (x y : Reg) (n : Nibble) : Word := f ++ regBits x ++ regBits y ++ n

/-- The canonical word of an instruction, as the table of R102 gives it: 0 in every ignored bit (R99). -/
def encode : Instr → Word
  | .clearScreen => 0x00E0
  | .ret => 0x00EE
  | .jump nnn => wordA 0x1 nnn
  | .call nnn => wordA 0x2 nnn
  | .skipIfEqualImmediate x nn => wordX 0x3 x nn
  | .skipIfNotEqualImmediate x nn => wordX 0x4 x nn
  | .skipIfRegistersEqual x y => wordXY 0x5 x y 0x0
  | .setImmediate x nn => wordX 0x6 x nn
  | .addImmediate x nn => wordX 0x7 x nn
  | .assign x y => wordXY 0x8 x y 0x0
  | .or x y => wordXY 0x8 x y 0x1
  | .and x y => wordXY 0x8 x y 0x2
  | .xor x y => wordXY 0x8 x y 0x3
  | .add x y => wordXY 0x8 x y 0x4
  | .subtract x y => wordXY 0x8 x y 0x5
  | .shiftRight x y => wordXY 0x8 x y 0x6
  | .subtractReverse x y => wordXY 0x8 x y 0x7
  | .shiftLeft x => wordXY 0x8 x 0 0xE
  | .skipIfRegistersNotEqual x y => wordXY 0x9 x y 0x0
  | .setIndex nnn => wordA 0xA nnn
  | .jumpWithOffset nnn => wordA 0xB nnn
  | .randomAnd x nn => wordX 0xC x nn
  | .drawSprite x y n => wordXY 0xD x y n
  | .skipIfKeyPressed x => wordX 0xE x 0x9E
  | .skipIfKeyNotPressed x => wordX 0xE x 0xA1
  | .getDelayTimer x => wordX 0xF x 0x07
  | .waitForKey x => wordX 0xF x 0x0A
  | .setDelayTimer x => wordX 0xF x 0x15
  | .setSoundTimer x => wordX 0xF x 0x18
  | .addToIndex x => wordX 0xF x 0x1E
  | .loadFontAddress x => wordX 0xF x 0x29
  | .storeBCD x => wordX 0xF x 0x33
  | .storeRegisters x => wordX 0xF x 0x55
  | .loadRegisters x => wordX 0xF x 0x65

/-! ## The opcode table -/

/-- The name of an instruction in spec/opcode_table.json and R102. -/
def Instr.mnemonic : Instr → String
  | .clearScreen => "clear-screen"
  | .ret => "return"
  | .jump _ => "jump"
  | .call _ => "call"
  | .skipIfEqualImmediate _ _ => "skip-if-equal-immediate"
  | .skipIfNotEqualImmediate _ _ => "skip-if-not-equal-immediate"
  | .skipIfRegistersEqual _ _ => "skip-if-registers-equal"
  | .setImmediate _ _ => "set-immediate"
  | .addImmediate _ _ => "add-immediate"
  | .assign _ _ => "assign"
  | .or _ _ => "or"
  | .and _ _ => "and"
  | .xor _ _ => "xor"
  | .add _ _ => "add"
  | .subtract _ _ => "subtract"
  | .shiftRight _ _ => "shift-right"
  | .subtractReverse _ _ => "subtract-reverse"
  | .shiftLeft _ => "shift-left"
  | .skipIfRegistersNotEqual _ _ => "skip-if-registers-not-equal"
  | .setIndex _ => "set-index"
  | .jumpWithOffset _ => "jump-with-offset"
  | .randomAnd _ _ => "random-and"
  | .drawSprite _ _ _ => "draw-sprite"
  | .skipIfKeyPressed _ => "skip-if-key-pressed"
  | .skipIfKeyNotPressed _ => "skip-if-key-not-pressed"
  | .getDelayTimer _ => "get-delay-timer"
  | .waitForKey _ => "wait-for-key"
  | .setDelayTimer _ => "set-delay-timer"
  | .setSoundTimer _ => "set-sound-timer"
  | .addToIndex _ => "add-to-index"
  | .loadFontAddress _ => "load-font-address"
  | .storeBCD _ => "store-BCD"
  | .storeRegisters _ => "store-registers"
  | .loadRegisters _ => "load-registers"

/-- One row of spec/opcode_table.json: a word is this instruction exactly when `w and mask = pattern`. -/
structure OpcodeRow where
  mnemonic : String
  pattern  : Word
  mask     : Word
deriving DecidableEq, Repr

/-- Whether a word belongs to a row. -/
def OpcodeRow.covers (row : OpcodeRow) (w : Word) : Bool := w &&& row.mask = row.pattern

/-- The rows of families 0x0 to 0x7 (R94, R95). -/
def opcodeRowsLow : List OpcodeRow := [
  ⟨"clear-screen", 0x00E0, 0xF0FF⟩,
  ⟨"return", 0x00EE, 0xF0FF⟩,
  ⟨"jump", 0x1000, 0xF000⟩,
  ⟨"call", 0x2000, 0xF000⟩,
  ⟨"skip-if-equal-immediate", 0x3000, 0xF000⟩,
  ⟨"skip-if-not-equal-immediate", 0x4000, 0xF000⟩,
  ⟨"skip-if-registers-equal", 0x5000, 0xF000⟩,
  ⟨"set-immediate", 0x6000, 0xF000⟩,
  ⟨"add-immediate", 0x7000, 0xF000⟩]

/-- The rows of family 0x8 (R96). -/
def opcodeRowsArith : List OpcodeRow := [
  ⟨"assign", 0x8000, 0xF00F⟩,
  ⟨"or", 0x8001, 0xF00F⟩,
  ⟨"and", 0x8002, 0xF00F⟩,
  ⟨"xor", 0x8003, 0xF00F⟩,
  ⟨"add", 0x8004, 0xF00F⟩,
  ⟨"subtract", 0x8005, 0xF00F⟩,
  ⟨"shift-right", 0x8006, 0xF00F⟩,
  ⟨"subtract-reverse", 0x8007, 0xF00F⟩,
  ⟨"shift-left", 0x800E, 0xF00F⟩]

/-- The rows of families 0x9 to 0xF (R94, R97, R98). -/
def opcodeRowsHigh : List OpcodeRow := [
  ⟨"skip-if-registers-not-equal", 0x9000, 0xF000⟩,
  ⟨"set-index", 0xA000, 0xF000⟩,
  ⟨"jump-with-offset", 0xB000, 0xF000⟩,
  ⟨"random-and", 0xC000, 0xF000⟩,
  ⟨"draw-sprite", 0xD000, 0xF000⟩,
  ⟨"skip-if-key-pressed", 0xE09E, 0xF0FF⟩,
  ⟨"skip-if-key-not-pressed", 0xE0A1, 0xF0FF⟩,
  ⟨"get-delay-timer", 0xF007, 0xF0FF⟩,
  ⟨"wait-for-key", 0xF00A, 0xF0FF⟩,
  ⟨"set-delay-timer", 0xF015, 0xF0FF⟩,
  ⟨"set-sound-timer", 0xF018, 0xF0FF⟩,
  ⟨"add-to-index", 0xF01E, 0xF0FF⟩,
  ⟨"load-font-address", 0xF029, 0xF0FF⟩,
  ⟨"store-BCD", 0xF033, 0xF0FF⟩,
  ⟨"store-registers", 0xF055, 0xF0FF⟩,
  ⟨"load-registers", 0xF065, 0xF0FF⟩]

/-- spec/opcode_table.json, whole and in its order (R94 to R98). -/
def opcodeTable : List OpcodeRow := opcodeRowsLow ++ opcodeRowsArith ++ opcodeRowsHigh

end Sys2Proof
end

