-- ==== Sys2Proof/Machine/Font.lean ====
section
/-! DEFINITION. The parameter FONT_ROM (20_memory.md R62): the 80 bytes of the built-in font, at its
default. -/

namespace Sys2Proof.Machine

/-- Glyphs 0 to 7 of R62's default table. PRESUMED by the spec itself ("from general knowledge, not in
source"; D9, U16; log entry 2; unsafe for a claim that rests on one of these bytes). -/
def fontRomLow : List Byte := [
  0xF0, 0x90, 0x90, 0x90, 0xF0,
  0x20, 0x60, 0x20, 0x20, 0x70,
  0xF0, 0x10, 0xF0, 0x80, 0xF0,
  0xF0, 0x10, 0xF0, 0x10, 0xF0,
  0x90, 0x90, 0xF0, 0x10, 0x10,
  0xF0, 0x80, 0xF0, 0x10, 0xF0,
  0xF0, 0x80, 0xF0, 0x90, 0xF0,
  0xF0, 0x10, 0x20, 0x40, 0x40]

/-- Glyphs 8 to F of R62's default table. Only glyph A (the third row here) is the source's; the others are
PRESUMED as above (log entry 2). -/
def fontRomHigh : List Byte := [
  0xF0, 0x90, 0xF0, 0x90, 0xF0,
  0xF0, 0x90, 0xF0, 0x10, 0xF0,
  0xF0, 0x90, 0xF0, 0x90, 0x90,
  0xE0, 0x90, 0xE0, 0x90, 0xE0,
  0xF0, 0x80, 0x80, 0x80, 0xF0,
  0xE0, 0x90, 0x90, 0x90, 0xE0,
  0xF0, 0x80, 0xF0, 0x80, 0xF0,
  0xF0, 0x80, 0xF0, 0x80, 0x80]

/-- FONT_ROM, the byte at offset `i` from FONT_BASE for `i` in 0..79 (R62). -/
def fontRom : List Byte := fontRomLow ++ fontRomHigh

end Sys2Proof.Machine
end

