-- ==== Sys2Proof/Machine/State.lean ====
section
/-! DEFINITION. The machine state as plain data: every row of the complete state table 10_state.md R36,
and the model's own counter of random bytes drawn; the reasons of the fault latch; reset (R290). -/

namespace Sys2Proof.Machine

/-- The 4096 bytes of R60 as a list of (address, byte) cells, in one canonical form (`Memory.wf` in
Machine/Ops.lean): addresses strictly rising, all below 4096, and no cell equal to what an unlisted address
reads as (`Memory.unlisted`, the reset contents of R61). DESIGN CHOICE of form, log entry 5; safe. -/
abbrev Memory := List Host.Cell

/-- The seven fault causes of R252. They are recorded in the latch `State.fault`; none ends a run. -/
inductive Cause where
  /-- Code 1: a fetch with `pc > 0xFFE` (R66, R122); `info` is `pc`. -/
  | fetchOutOfRange
  /-- Code 2: a data access above 0xFFF by draw-sprite, store-BCD, store-registers or load-registers (R66); `info` is the address. -/
  | dataOutOfRange
  /-- Code 3: call with `sp = 16` (R142); `info` is 16. -/
  | stackOverflow
  /-- Code 4: return with `sp = 0` (R140); `info` is 0. -/
  | stackUnderflow
  /-- Code 5: draw-sprite with a sprite bit 1 at a pixel index above 2047 (R214); `info` is the index. -/
  | displayOutOfRange
  /-- Code 6: load-font-address with `x[X] > 15` (R192); `info` is `x[X]`. -/
  | fontIndexInvalid
  /-- Code 7: a key skip with `x[X] > 15` (R236); `info` is `x[X]`. -/
  | keyIndexInvalid
deriving DecidableEq, Repr

/-- The record of the fault latch (R32): the cause, the address of the faulting instruction, its word (0
for a fetch fault), and a cause-specific number. -/
structure FaultRecord where
  cause : Cause
  addr  : Word
  word  : Word
  info  : Nat
deriving DecidableEq, Repr

/-- The whole state (R36). -/
structure State where
  /-- General registers `x[0..15]` (R20); `x[15]` is the flag (R21). -/
  x      : Vector Byte 16
  /-- Index register `I` (R22). -/
  index  : Word
  /-- Program counter (R23). -/
  pc     : Word
  /-- Call stack (R24). -/
  stack  : Vector Word 16
  /-- Stack pointer, the number of return addresses held, 0..16 (R25). -/
  sp     : Fin 17
  /-- Delay timer `DT` (R26). -/
  dt     : Byte
  /-- Sound timer `ST` (R27). -/
  st     : Byte
  /-- Keypad: bit `k` is `key[k]`, 1 while key `k` is down (R28, R129: "read as one 16-bit value").
  Held as state that only the host changes, between steps (DESIGN CHOICE, log entry 13; unsafe for a claim about
  a run of several steps that forgets the host; log entry 14 for the form). -/
  key    : BitVec 16
  /-- Display buffer: bit `k` is `fb[k]`, the pixel at column `c` and row `r` with `k = c + 64*r` (R29;
  DESIGN CHOICE of form, log entry 14; safe). -/
  fb     : BitVec 2048
  /-- The most recently fetched word (R30). -/
  opcode : Word
  /-- Memory (R31, R60). -/
  mem    : Memory
  /-- Fault latch (R32). -/
  fault  : Option FaultRecord
  /-- THE MODEL'S OWN field: how many random bytes have been drawn, the argument of the free value
  `Config.rnd` that stands for the step input `rnd` (R33; DESIGN CHOICE, log entry 3; safe). -/
  draws  : Nat
deriving DecidableEq, Repr

/-- The reasons for which a step of the model could stop with a fault. There is none: every fault the spec
describes is an entry of the latch, after which the machine still has a next state (R121, R128, R253), and
the core "is designed to never halt the emulation loop on its own" (R121). Safe: nothing stops (UNVERIFIED,
log entry 6). -/
inductive Fault where
deriving DecidableEq, Repr

/-- The reasons for which the model could refuse an instruction. -/
inductive Refusal where
  /-- An instruction the model gives no meaning yet, by its mnemonic: raised by an arm of `exec` alone.
  Every instruction has its meaning, so no arm raises it. Safe. -/
  | notModelled (mnemonic : String)
deriving DecidableEq, Repr

/-- The machine right after reset (R36, R290): "memory zeroed except font region, program counter set to
0x200, all else zeroed". The empty list of cells is exactly that memory (`Memory.unlisted`). -/
def State.reset : State where
  x      := Vector.replicate 16 0
  index  := 0
  pc     := 0x200
  stack  := Vector.replicate 16 0
  sp     := 0
  dt     := 0
  st     := 0
  key    := 0
  fb     := 0
  opcode := 0
  mem    := []
  fault  := none
  draws  := 0

end Sys2Proof.Machine
end

