-- ==== Sys2Proof/Machine/Ops.lean ====
section
/-! DEFINITION. The named operations over the state: registers, memory, call stack, keypad and display
accesses, and taking a fault, the machine's one kind of exception. -/

namespace Sys2Proof.Machine

/-- What every operation and meaning answers with. -/
abbrev Result := Host.Outcome State Fault Refusal

/-- A `raise` of the spec's pseudocode (R6), before it is recorded: the cause and the cause-specific number. -/
structure Raise where
  cause : Cause
  info  : Nat
deriving DecidableEq, Repr

/-! ## Single fields -/

def setPc (v : Word) (s : State) : State := { s with pc := v }
def setIndex (v : Word) (s : State) : State := { s with index := v }
def setDt (v : Byte) (s : State) : State := { s with dt := v }
def setSt (v : Byte) (s : State) : State := { s with st := v }
def setFb (v : BitVec 2048) (s : State) : State := { s with fb := v }
def setOpcode (v : Word) (s : State) : State := { s with opcode := v }
def setMem (v : Memory) (s : State) : State := { s with mem := v }
def setFault (v : Option FaultRecord) (s : State) : State := { s with fault := v }
def setStack (v : Vector Word 16) (s : State) : State := { s with stack := v }
def setSp (v : Fin 17) (s : State) : State := { s with sp := v }
def setKey (v : BitVec 16) (s : State) : State := { s with key := v }
def setDraws (v : Nat) (s : State) : State := { s with draws := v }
def setRegs (v : Vector Byte 16) (s : State) : State := { s with x := v }

/-! ## General registers (R20) -/

/-- Read of `x[r]`; no register is hard-wired and none is banked (R20). -/
def readReg (s : State) (r : Reg) : Byte := s.x[r]

/-- Write of `x[r]` (R20). -/
def writeReg (r : Reg) (v : Byte) (s : State) : State := setRegs (s.x.set r v) s

/-- Write of the flag register `x[15]` as a side effect: "Each writes 0 or 1" (R21). -/
def writeFlag (b : Bool) (s : State) : State := writeReg Config.flagReg (if b then 1 else 0) s

/-- Registers `x[0]`, `x[1]`, ... from a list of bytes, the first byte into register `k` (R195). -/
def writeRegsFrom (k : Nat) : List Byte → State → State
  | [], s => s
  | b :: bs, s => writeRegsFrom (k + 1) bs (if h : k < 16 then writeReg ⟨k, h⟩ b s else s)

/-- The values of `count` registers from `x[k]` on, in ascending order (R194). -/
def readRegsFrom (s : State) (k : Nat) : Nat → List Byte
  | 0 => []
  | count + 1 => (if h : k < 16 then readReg s ⟨k, h⟩ else 0) :: readRegsFrom s (k + 1) count

/-! ## Memory (R60 to R67) -/

/-- What an address no cell lists reads as: the reset contents of R61 and R290, the font bytes at
0x050..0x09F and 0 elsewhere. -/
def Memory.unlisted (a : Nat) : Byte :=
  if Config.fontBase ≤ a ∧ a < Config.fontBase + Config.fontLen then fontRom.getD (a - Config.fontBase) 0 else 0

/-- The byte `mem[a]`. -/
def Memory.read : Memory → Nat → Byte
  | [], a => Memory.unlisted a
  | (b, v) :: rest, a => if b = a then v else Memory.read rest a

/-- Puts a cell where the rising order of addresses wants it, in place of one with the same address. -/
def Memory.insert (a : Nat) (v : Byte) : Memory → Memory
  | [] => [(a, v)]
  | (b, u) :: rest =>
    if a < b then (a, v) :: (b, u) :: rest
    else if a = b then (a, v) :: rest
    else (b, u) :: Memory.insert a v rest

/-- Takes out the cells of an address. -/
def Memory.erase (a : Nat) : Memory → Memory
  | [] => []
  | (b, u) :: rest => if b = a then Memory.erase a rest else (b, u) :: Memory.erase a rest

/-- `mem[a] <- v` (R67), kept in the canonical form: a value equal to what an unlisted address reads as
takes the cell out. -/
def Memory.write (m : Memory) (a : Nat) (v : Byte) : Memory :=
  if v = Memory.unlisted a then Memory.erase a m else Memory.insert a v m

/-- The canonical form: addresses strictly rising and valid (R60), no cell equal to its unlisted value. -/
def Memory.wf : Memory → Bool
  | [] => true
  | (a, v) :: rest =>
    decide (a < Config.memSize) && decide (v ≠ Memory.unlisted a) && rest.all (fun c => decide (a < c.1)) && Memory.wf rest

/-- `MemRead(a, 1)` (R67): "if `a > 0xFFF` then `raise DataOutOfRange(a)`; otherwise the value is `mem[a]`". -/
def memRead (m : Memory) (a : Nat) : Except Raise Byte :=
  if a < Config.memSize then .ok (m.read a) else .error ⟨.dataOutOfRange, a⟩

/-- `MemWrite(a, 1, v)` (R67). -/
def memWrite (m : Memory) (a : Nat) (v : Byte) : Except Raise Memory :=
  if a < Config.memSize then .ok (m.write a v) else .error ⟨.dataOutOfRange, a⟩

/-- `count` bytes read at ascending addresses from `a`; a raise is that of the lowest bad address (R195). -/
def loadBytes (m : Memory) (a : Nat) : Nat → Except Raise (List Byte)
  | 0 => .ok []
  | count + 1 =>
    match memRead m a with
    | .error e => .error e
    | .ok b =>
      match loadBytes m (a + 1) count with
      | .error e => .error e
      | .ok bs => .ok (b :: bs)

/-- Bytes written at ascending addresses from `a`, all or none: a raise is that of the lowest bad address
(R67, R193, R194). -/
def storeBytes (m : Memory) (a : Nat) : List Byte → Except Raise Memory
  | [] => .ok m
  | b :: bs =>
    match memWrite m a b with
    | .error e => .error e
    | .ok m' => storeBytes m' (a + 1) bs

/-! ## Call stack (R24, R25) -/

/-- The stack entry of a number. -/
def stackAt (s : State) (k : Fin 16) : Word := s.stack[k]

/-- The push of call (R142): "if sp = 16: raise StackOverflow(16)", else `stack[sp] <- v` and `sp <- sp + 1`. -/
def push (v : Word) (s : State) : Except Raise State :=
  if h : s.sp.val < 16 then
    .ok (setSp ⟨s.sp.val + 1, by omega⟩ (setStack (s.stack.set s.sp.val v) s))
  else .error ⟨.stackOverflow, 16⟩

/-- The pop of return (R140): "if sp = 0: raise StackUnderflow(0)", else `sp <- sp - 1` and the entry
`stack[sp]`, which keeps its value (R24). -/
def pop (s : State) : Except Raise (Word × State) :=
  if h : 0 < s.sp.val then
    .ok (stackAt s ⟨s.sp.val - 1, by omega⟩, setSp ⟨s.sp.val - 1, by omega⟩ s)
  else .error ⟨.stackUnderflow, 0⟩

/-! ## Keypad (R28) -/

/-- `key[k] = 1`: key `k` is down (R28). -/
def keyDown (keys : BitVec 16) (k : Nat) : Bool := keys.getLsbD k

/-- The lowest `j` in `k .. k + count - 1` with `key[j] = 1` (R232, KEY_PRIORITY of R4). -/
def lowestKeyFrom (keys : BitVec 16) (k : Nat) : Nat → Option Nat
  | 0 => none
  | count + 1 => if keyDown keys k then some k else lowestKeyFrom keys (k + 1) count

/-- The lowest-numbered key down, if any is (R232). -/
def lowestKey (keys : BitVec 16) : Option Nat := lowestKeyFrom keys 0 16

/-! ## Display (R29, R211 to R214) -/

/-- The pixel `fb[k]`. -/
def pixel (fb : BitVec 2048) (k : Nat) : Bool := fb.getLsbD k

/-- `fb[k] <- fb[k] xor 1`. -/
def togglePixel (fb : BitVec 2048) (k : Nat) : BitVec 2048 := fb ^^^ BitVec.twoPow 2048 k

/-- The display while a sprite is drawn, with the collision seen so far (R211). -/
structure Canvas where
  fb  : BitVec 2048
  hit : Bool
deriving DecidableEq, Repr

/-- One sprite bit equal to 1 at pixel index `k`: range check, collision, XOR (R211, R213, R214). -/
def plot (k : Nat) (c : Canvas) : Except Raise Canvas :=
  if k < Config.displaySize then .ok { fb := togglePixel c.fb k, hit := c.hit || pixel c.fb k }
  else .error ⟨.displayOutOfRange, k⟩

/-- Bit `col` of a sprite row, column 0 leftmost: bit 7 of the byte is column 0 (R212). -/
def spriteBit (b : Byte) (col : Nat) : Bool := b.getLsbD (7 - col)

/-- The columns `col .. col + count - 1` of a row whose column 0 is pixel `base`; a 0 bit neither reads nor
writes the display (R211). -/
def drawBits (b : Byte) (base col : Nat) : Nat → Canvas → Except Raise Canvas
  | 0, c => .ok c
  | count + 1, c =>
    match (if spriteBit b col then plot (base + col) c else .ok c) with
    | .error e => .error e
    | .ok c' => drawBits b base (col + 1) count c'

/-- The sprite rows `row .. row + count - 1` at column `vx` and top row `vy`: for each, the memory read and
then its eight columns (R211, R214), at the linear index of R212. -/
def drawRows (m : Memory) (i vx vy row : Nat) : Nat → Canvas → Except Raise Canvas
  | 0, c => .ok c
  | count + 1, c =>
    match memRead m (i + row) with
    | .error e => .error e
    | .ok b =>
      match drawBits b (vx + (vy + row) * Config.displayWidth) 0 8 c with
      | .error e => .error e
      | .ok c' => drawRows m i vx vy (row + 1) count c'

/-! ## Taking a fault (R32, R128, R252, R253) -/

/-- The numeric code of a cause (R252). -/
def Cause.code : Cause → Nat
  | .fetchOutOfRange => 1
  | .dataOutOfRange => 2
  | .stackOverflow => 3
  | .stackUnderflow => 4
  | .displayOutOfRange => 5
  | .fontIndexInvalid => 6
  | .keyIndexInvalid => 7

/-- Fault entry (R253): the latch receives cause, instruction address, word and info; "nothing else
changes". There is no vector and no handler (R250), and no return from a fault but reset (R254). -/
def raiseAt (addr word : Word) (e : Raise) (s : State) : State :=
  setFault (some ⟨e.cause, addr, word, e.info⟩) s

/-- A raise in the execute stage. There `pc` is the instruction's address plus 2 (R123) and `opcode` its
word (R122). The instruction's own writes are discarded, since the state given is the one it started from;
those of the fetch are discarded by `retire` (Machine/Cycle.lean). -/
def raise (e : Raise) (s : State) : State := raiseAt (s.pc - 2) s.opcode e s

/-- The end of a meaning that may raise: the state it computed, or the fault taken from the state it
started from (R128). -/
def orRaise (s : State) (r : Except Raise State) : Result :=
  match r with
  | .ok t => .next t
  | .error e => .next (raise e s)

end Sys2Proof.Machine
end

