-- ==== Sys2Proof/Machine/Cycle.lean ====
section
/-! DEFINITION. The stages of a step around the execute stage (40_step_cycle.md R120): halt check, fetch,
advance, decode, the unrecognized no-op, the timer tick, the discarding of a faulting step's writes; and the
event a step emits (R38). -/

namespace Sys2Proof.Machine

/-- Fetch (R122): the big-endian word at `pc`, or `FetchOutOfRange(pc)` when `pc > 0xFFE`. The current
content of memory is read (R75), whatever the parity of `pc` (R65). -/
def fetch (s : State) : Except Raise Word :=
  if s.pc.toNat ≤ 0xFFE then
    .ok (wordOfBytes (s.mem.read s.pc.toNat) (s.mem.read (s.pc.toNat + 1)))
  else .error ⟨.fetchOutOfRange, s.pc.toNat⟩

/-- What fetch and advance write: `opcode <- w` (R122), `pc <- (a + 2) mod 65536` (R123). -/
def advance (w : Word) (s : State) : State := setPc (s.pc + 2) (setOpcode w s)

/-- One timer's tick: "if v > 0: v - 1", and a timer at 0 stays 0 (R127). -/
def tickTimer (v : Byte) : Byte := if v = 0 then 0 else v - 1

/-- The timer tick (R127). -/
def tick (s : State) : State := setDt (tickTimer s.dt) (setSt (tickTimer s.st) s)

/-- The end of a step that began in `s` and whose stages left `t`: with no fault the timers tick (R127);
with a fault every write of the step is discarded and only the latch changes (R128, R253). -/
def retire (s t : State) : State :=
  match t.fault with
  | some f => setFault (some f) s
  | none => tick t

/-- What the stages before execute answer. -/
inductive Stage where
  /-- The step ends here with this state: halted (R121), a fetch fault (R122), or an unrecognized word (R125). -/
  | done (t : State)
  /-- This instruction is to be executed in this state, fetched and advanced (R123, R126). -/
  | execute (i : Instr) (t : State)
deriving DecidableEq, Repr

/-- Halt check, fetch, advance, decode (R120 stages 1 to 4). A fetch fault records word 0 (R128); an
unrecognized word has no execute stage, and its step ends with the tick (R125). -/
def frontEnd (s : State) : Stage :=
  match s.fault with
  | some _ => .done s
  | none =>
    match fetch s with
    | .error e => .done (raiseAt s.pc 0 e s)
    | .ok w =>
      match decode w with
      | .error _ => .done (retire s (advance w s))
      | .ok i => .execute i (advance w s)

/-- The instruction a step from this state executes, if it executes one. -/
def nextInstr (s : State) : Option Instr :=
  match frontEnd s with
  | .execute i _ => some i
  | .done _ => none

/-- The event `Unrecognized(word, addr)` (R38). -/
structure UnrecognizedEvent where
  word : Word
  addr : Word
deriving DecidableEq, Repr

/-- The event the step from this state emits, if any: "an output of that step only; it is not latched and
changes no state" (R38), so it is a function of the state the step starts from and no field of State. A
halted step and a faulting step emit nothing (R121, R255). DESIGN CHOICE of form, log entry 8; safe. -/
def event (s : State) : Option UnrecognizedEvent :=
  match s.fault with
  | some _ => none
  | none =>
    match fetch s with
    | .error _ => none
    | .ok w =>
      match decode w with
      | .error _ => some ⟨w, s.pc⟩
      | .ok _ => none

/-- A word stored where the next step fetches it: at `pc` and `pc + 1`, the high byte first (R63). The next
step fetches only from `pc <= 0xFFE` with an empty latch, so a `pc` above that is put to PROG_BASE and the
latch is emptied; nothing else changes. DESIGN CHOICE, log entry 4; safe. -/
def placeWord (w : Word) (s : State) : State :=
  let at_ : Word := if s.pc.toNat ≤ 0xFFE then s.pc else BitVec.ofNat 16 Config.progBase
  setFault none (setPc at_ (setMem ((s.mem.write at_.toNat (highByte w)).write (at_.toNat + 1) (lowByte w)) s))

end Sys2Proof.Machine
end

