-- ==== Sys2Proof/Machine/Flags.lean ====
section
/-! DEFINITION. The flag computations of the five arithmetic instructions that write `x[15]`, and the
wrapping results they go with (42_alu.md R166 to R170, R172). -/

namespace Sys2Proof.Machine

/-- The 9-bit sum of add, 0..510 (R166). -/
def sum9 (a b : Byte) : Nat := a.toNat + b.toNat

/-- "1 if sum > 255 else 0" (R166). -/
def carryOut (a b : Byte) : Bool := decide (sum9 a b > 255)

/-- `sum mod 256` (R166, R172). -/
def sumLow (a b : Byte) : Byte := BitVec.ofNat 8 (sum9 a b)

/-- "1 if x[X] >= x[Y] else 0", the no-borrow flag of subtract (R167). -/
def noBorrow (a b : Byte) : Bool := decide (a.toNat ≥ b.toNat)

/-- "1 if x[Y] > x[X] else 0", the strict flag of subtract-reverse, `a` being `x[Y]` (R169; U9). -/
def strictlyGreater (a b : Byte) : Bool := decide (a.toNat > b.toNat)

/-- `(a - b) mod 256`, "meaning `a - b + 256` when `a < b`" (R172). -/
def diffWrap (a b : Byte) : Byte := a - b

/-- The bit shift-right shifts out, bit 0 (R168). -/
def lowBit (a : Byte) : Bool := a.getLsbD 0

/-- The bit shift-left shifts out, bit 7 (R170). -/
def highBit (a : Byte) : Bool := a.getLsbD 7

/-- The logical shift right by one: bit 7 of the result is 0 (R168). -/
def shr1 (a : Byte) : Byte := a >>> 1

/-- The shift left by one, modulo 256: bit 0 of the result is 0 (R170). -/
def shl1 (a : Byte) : Byte := a <<< 1

end Sys2Proof.Machine
end

