-- ==== Sys2Proof/Machine/Operands.lean ====
section
/-! DEFINITION. The operand forms: zero-extended immediates, jump targets, the skip, effective addresses,
checked register values used as an index, decimal digits (R93, R147, R148, R192, R193, R196, R236). -/

namespace Sys2Proof.Machine

/-- `zext_16(NNN)`: an address immediate for `pc` or `I` (R93). -/
def zextAddr (nnn : Addr12) : Word := nnn.setWidth 16

/-- `zext_16(v)` of a register value (R5). -/
def zextByte (v : Byte) : Word := v.setWidth 16

/-- The target of jump-with-offset: `(zext_16(x[0]) + zext_16(NNN)) mod 65536` (R147). -/
def offsetTarget (s : State) (nnn : Addr12) : Word := zextByte (readReg s 0) + zextAddr nnn

/-- "if the condition holds: pc <- (pc + 2) mod 65536" (R148). -/
def skipIf (c : Bool) (s : State) : State := if c then setPc (s.pc + 2) s else s

/-- The effective address `I + k` "computed on unbounded naturals" (R196); no access changes `I` (UNVERIFIED, log
entry 16). -/
def effectiveAddress (s : State) (k : Nat) : Nat := s.index.toNat + k

/-- A register value used to index the keypad: above 15 it raises `KeyIndexInvalid` (R236). -/
def keyIndex (v : Byte) : Except Raise Nat :=
  if v.toNat ≤ 15 then .ok v.toNat else .error ⟨.keyIndexInvalid, v.toNat⟩

/-- The glyph address `0x050 + 5 * x[X]`: a value above 15 raises `FontIndexInvalid` (R192). -/
def glyphAddress (v : Byte) : Except Raise Word :=
  if v.toNat ≤ 15 then .ok (BitVec.ofNat 16 (Config.fontBase + 5 * v.toNat))
  else .error ⟨.fontIndexInvalid, v.toNat⟩

/-- The hundreds, tens and ones digits of a register value, in the order they are stored (R193). -/
def bcdDigits (v : Byte) : List Byte :=
  [BitVec.ofNat 8 (v.toNat / 100), BitVec.ofNat 8 (v.toNat / 10 % 10), BitVec.ofNat 8 (v.toNat % 10)]

end Sys2Proof.Machine
end

