-- ==== Sys2Proof/Machine/Alu.lean ====
section
/-! DEFINITION. Register load, arithmetic, logic, shifts, random (42_alu.md). The five instructions that
write the flag do so first and their result second, each statement reading the registers as the one before
left them (R173, D5; UNVERIFIED, log entry 10); add forms its sum before either write (R166). -/

namespace Sys2Proof.Machine

/-- set-immediate X,NN (R160). -/
def execSetImmediate (x : Reg) (nn : Byte) (s : State) : Result := .next (writeReg x nn s)

/-- add-immediate X,NN (R161): wraps, no flag. -/
def execAddImmediate (x : Reg) (nn : Byte) (s : State) : Result := .next (writeReg x (sumLow (readReg s x) nn) s)

/-- assign X,Y (R162). -/
def execAssign (x y : Reg) (s : State) : Result := .next (writeReg x (readReg s y) s)

/-- or X,Y (R163): no flag. -/
def execOr (x y : Reg) (s : State) : Result := .next (writeReg x (readReg s x ||| readReg s y) s)

/-- and X,Y (R164): no flag. -/
def execAnd (x y : Reg) (s : State) : Result := .next (writeReg x (readReg s x &&& readReg s y) s)

/-- xor X,Y (R165): no flag. -/
def execXor (x y : Reg) (s : State) : Result := .next (writeReg x (readReg s x ^^^ readReg s y) s)

/-- add X,Y (R166): the sum is of the values before the instruction. -/
def execAdd (x y : Reg) (s : State) : Result :=
  .next (writeReg x (sumLow (readReg s x) (readReg s y)) (writeFlag (carryOut (readReg s x) (readReg s y)) s))

/-- subtract X,Y (R167): the difference is of the registers after the flag write. -/
def execSubtract (x y : Reg) (s : State) : Result :=
  let t := writeFlag (noBorrow (readReg s x) (readReg s y)) s
  .next (writeReg x (diffWrap (readReg t x) (readReg t y)) t)

/-- shift-right X,Y (R168): the source is `x[Y]`, read again after the flag write. -/
def execShiftRight (x y : Reg) (s : State) : Result :=
  let t := writeFlag (lowBit (readReg s y)) s
  .next (writeReg x (shr1 (readReg t y)) t)

/-- subtract-reverse X,Y (R169): the flag is the strict comparison, 0 on equal operands (U9). -/
def execSubtractReverse (x y : Reg) (s : State) : Result :=
  let t := writeFlag (strictlyGreater (readReg s y) (readReg s x)) s
  .next (writeReg x (diffWrap (readReg t y) (readReg t x)) t)

/-- shift-left X (R170): the source is `x[X]`, read again after the flag write. -/
def execShiftLeft (x : Reg) (s : State) : Result :=
  let t := writeFlag (highBit (readReg s x)) s
  .next (writeReg x (shl1 (readReg t x)) t)

/-- random-and X,NN (R171): the byte `rnd` of this step is the free value `Config.rnd` at the number of
bytes drawn before (R33, D13; log entries 1 and 3; safe). -/
def execRandomAnd (x : Reg) (nn : Byte) (s : State) : Result :=
  .next (setDraws (s.draws + 1) (writeReg x (Config.rnd s.draws &&& nn) s))

end Sys2Proof.Machine
end

