-- ==== Sys2Proof/Machine/ControlFlow.lean ====
section
/-! DEFINITION. The control transfer instructions (41_control_flow.md). In every meaning `s.pc` is already
the address of the next instruction in sequence (R123). -/

namespace Sys2Proof.Machine

/-- return (R140). -/
def execReturn (s : State) : Result :=
  orRaise s (match pop s with
    | .ok (target, t) => .ok (setPc target t)
    | .error e => .error e)

/-- jump NNN (R141). -/
def execJump (nnn : Addr12) (s : State) : Result := .next (setPc (zextAddr nnn) s)

/-- call NNN (R142): the pushed value is the advanced `pc`. -/
def execCall (nnn : Addr12) (s : State) : Result :=
  orRaise s (match push s.pc s with
    | .ok t => .ok (setPc (zextAddr nnn) t)
    | .error e => .error e)

/-- skip-if-equal-immediate X,NN (R143). -/
def execSkipIfEqualImmediate (x : Reg) (nn : Byte) (s : State) : Result :=
  .next (skipIf (decide (readReg s x = nn)) s)

/-- skip-if-not-equal-immediate X,NN (R144). -/
def execSkipIfNotEqualImmediate (x : Reg) (nn : Byte) (s : State) : Result :=
  .next (skipIf (decide (readReg s x ≠ nn)) s)

/-- skip-if-registers-equal X,Y (R145). -/
def execSkipIfRegistersEqual (x y : Reg) (s : State) : Result :=
  .next (skipIf (decide (readReg s x = readReg s y)) s)

/-- skip-if-registers-not-equal X,Y (R146). -/
def execSkipIfRegistersNotEqual (x y : Reg) (s : State) : Result :=
  .next (skipIf (decide (readReg s x ≠ readReg s y)) s)

/-- jump-with-offset NNN (R147): the register is always `x[0]`, and the sum is not reduced to 12 bits. -/
def execJumpWithOffset (nnn : Addr12) (s : State) : Result := .next (setPc (offsetTarget s nnn) s)

end Sys2Proof.Machine
end

