-- ==== Sys2Proof/Machine/Display.lean ====
section
/-! DEFINITION. Display instructions (44_display.md). -/

namespace Sys2Proof.Machine

/-- clear-screen (R210): every pixel off, the flag not written. -/
def execClearScreen (s : State) : Result := .next (setFb 0 s)

/-- draw-sprite X,Y,N (R211): the coordinates are read before anything is written, the rows are XORed onto
the display, and the collision flag is written last. UNVERIFIED, log entry 11: linear index, bit order, zero rows. -/
def execDrawSprite (x y : Reg) (n : Nibble) (s : State) : Result :=
  orRaise s (match drawRows s.mem (effectiveAddress s 0) (readReg s x).toNat (readReg s y).toNat 0 n.toNat
      { fb := s.fb, hit := false } with
    | .ok c => .ok (writeFlag c.hit (setFb c.fb s))
    | .error e => .error e)

end Sys2Proof.Machine
end

