-- ==== Sys2Proof/Machine/IndexMemory.lean ====
section
/-! DEFINITION. Index register and memory instructions (43_index_memory.md). No access changes `I` (R196,
D24). -/

namespace Sys2Proof.Machine

/-- set-index NNN (R190). -/
def execSetIndex (nnn : Addr12) (s : State) : Result := .next (setIndex (zextAddr nnn) s)

/-- add-to-index X (R191): wraps at 16 bits, no flag. -/
def execAddToIndex (x : Reg) (s : State) : Result := .next (setIndex (s.index + zextByte (readReg s x)) s)

/-- load-font-address X (R192): the whole register is tested, not its low nibble. -/
def execLoadFontAddress (x : Reg) (s : State) : Result :=
  orRaise s (match glyphAddress (readReg s x) with
    | .ok a => .ok (setIndex a s)
    | .error e => .error e)

/-- store-BCD X (R193): hundreds, tens, ones at `I`, `I+1`, `I+2`, all or none. -/
def execStoreBCD (x : Reg) (s : State) : Result :=
  orRaise s (match storeBytes s.mem (effectiveAddress s 0) (bcdDigits (readReg s x)) with
    | .ok m => .ok (setMem m s)
    | .error e => .error e)

/-- store-registers X (R194): `x[0]..x[X]` to `I..I+X`, all or none. -/
def execStoreRegisters (x : Reg) (s : State) : Result :=
  orRaise s (match storeBytes s.mem (effectiveAddress s 0) (readRegsFrom s 0 (x.val + 1)) with
    | .ok m => .ok (setMem m s)
    | .error e => .error e)

/-- load-registers X (R195): `I..I+X` into `x[0]..x[X]`, every byte read before any register is written. -/
def execLoadRegisters (x : Reg) (s : State) : Result :=
  orRaise s (match loadBytes s.mem (effectiveAddress s 0) (x.val + 1) with
    | .ok bs => .ok (writeRegsFrom 0 bs s)
    | .error e => .error e)

end Sys2Proof.Machine
end

