-- ==== Sys2Proof/Machine/KeypadTimers.lean ====
section
/-! DEFINITION. Keypad and timer instructions (45_keypad_timers.md). The timer tick of the same step comes
after these meanings (R127; Machine/Cycle.lean). -/

namespace Sys2Proof.Machine

/-- skip-if-key-pressed X (R230). -/
def execSkipIfKeyPressed (x : Reg) (s : State) : Result :=
  orRaise s (match keyIndex (readReg s x) with
    | .ok k => .ok (skipIf (keyDown s.key k) s)
    | .error e => .error e)

/-- skip-if-key-not-pressed X (R231). -/
def execSkipIfKeyNotPressed (x : Reg) (s : State) : Result :=
  orRaise s (match keyIndex (readReg s x) with
    | .ok k => .ok (skipIf (!keyDown s.key k) s)
    | .error e => .error e)

/-- wait-for-key X (R232): with no key down `pc` goes back onto this instruction, else the lowest key down
is the result (KEY_PRIORITY of R4, D12; UNVERIFIED, log entry 12; unsafe when several keys are down). -/
def execWaitForKey (x : Reg) (s : State) : Result :=
  match lowestKey s.key with
  | none => .next (setPc (s.pc - 2) s)
  | some k => .next (writeReg x (BitVec.ofNat 8 k) s)

/-- get-delay-timer X (R233): the value before this step's tick. -/
def execGetDelayTimer (x : Reg) (s : State) : Result := .next (writeReg x s.dt s)

/-- set-delay-timer X (R234). -/
def execSetDelayTimer (x : Reg) (s : State) : Result := .next (setDt (readReg s x) s)

/-- set-sound-timer X (R235). -/
def execSetSoundTimer (x : Reg) (s : State) : Result := .next (setSt (readReg s x) s)

end Sys2Proof.Machine
end

