-- ==== Sys2Proof/Machine/Dispatch.lean ====
section
/-! DEFINITION. The execute stage of a step (R126): one arm per instruction, in the table's order. -/

namespace Sys2Proof.Machine

def exec (i : Instr) (s : State) : Host.Outcome State Fault Refusal :=
  match i with
  -- family 0x0
  | .clearScreen => Sys2Proof.Machine.execClearScreen s
  | .ret => Sys2Proof.Machine.execReturn s
  -- families 0x1 to 0x7
  | .jump nnn => Sys2Proof.Machine.execJump nnn s
  | .call nnn => Sys2Proof.Machine.execCall nnn s
  | .skipIfEqualImmediate x nn => Sys2Proof.Machine.execSkipIfEqualImmediate x nn s
  | .skipIfNotEqualImmediate x nn => Sys2Proof.Machine.execSkipIfNotEqualImmediate x nn s
  | .skipIfRegistersEqual x y => Sys2Proof.Machine.execSkipIfRegistersEqual x y s
  | .setImmediate x nn => Sys2Proof.Machine.execSetImmediate x nn s
  | .addImmediate x nn => Sys2Proof.Machine.execAddImmediate x nn s
  -- family 0x8
  | .assign x y => Sys2Proof.Machine.execAssign x y s
  | .or x y => Sys2Proof.Machine.execOr x y s
  | .and x y => Sys2Proof.Machine.execAnd x y s
  | .xor x y => Sys2Proof.Machine.execXor x y s
  | .add x y => Sys2Proof.Machine.execAdd x y s
  | .subtract x y => Sys2Proof.Machine.execSubtract x y s
  | .shiftRight x y => Sys2Proof.Machine.execShiftRight x y s
  | .subtractReverse x y => Sys2Proof.Machine.execSubtractReverse x y s
  | .shiftLeft x => Sys2Proof.Machine.execShiftLeft x s
  -- families 0x9 to 0xD
  | .skipIfRegistersNotEqual x y => Sys2Proof.Machine.execSkipIfRegistersNotEqual x y s
  | .setIndex nnn => Sys2Proof.Machine.execSetIndex nnn s
  | .jumpWithOffset nnn => Sys2Proof.Machine.execJumpWithOffset nnn s
  | .randomAnd x nn => Sys2Proof.Machine.execRandomAnd x nn s
  | .drawSprite x y n => Sys2Proof.Machine.execDrawSprite x y n s
  -- family 0xE
  | .skipIfKeyPressed x => Sys2Proof.Machine.execSkipIfKeyPressed x s
  | .skipIfKeyNotPressed x => Sys2Proof.Machine.execSkipIfKeyNotPressed x s
  -- family 0xF
  | .getDelayTimer x => Sys2Proof.Machine.execGetDelayTimer x s
  | .waitForKey x => Sys2Proof.Machine.execWaitForKey x s
  | .setDelayTimer x => Sys2Proof.Machine.execSetDelayTimer x s
  | .setSoundTimer x => Sys2Proof.Machine.execSetSoundTimer x s
  | .addToIndex x => Sys2Proof.Machine.execAddToIndex x s
  | .loadFontAddress x => Sys2Proof.Machine.execLoadFontAddress x s
  | .storeBCD x => Sys2Proof.Machine.execStoreBCD x s
  | .storeRegisters x => Sys2Proof.Machine.execStoreRegisters x s
  | .loadRegisters x => Sys2Proof.Machine.execLoadRegisters x s

end Sys2Proof.Machine
end

