-- ==== Sys2Proof/Machine/Step.lean ====
section
/-! DEFINITION. The step function (40_step_cycle.md R120). -/

namespace Sys2Proof.Machine

/-- One step: the stages before execute, the execute stage, and the end of the step. -/
def step (s : State) : Host.Outcome State Fault Refusal :=
  match frontEnd s with
  | .done t => .next t
  | .execute i t =>
    match exec i t with
    | .next u => .next (retire s u)
    | .fault r => .fault r
    | .refused r => .refused r

/-- The state with one instruction word placed where the next step fetches it (log entry 4 says how a
program comes to run). Bits of `w` from `nbits` on count as 0; every instruction is one 16-bit word (R90). -/
def State.withFetchWord (s : State) (nbits w : Nat) : State :=
  placeWord (BitVec.ofNat 16 (w % 2 ^ nbits)) s

end Sys2Proof.Machine
end

