-- ==== Sys2Proof/Machine/Boundary.lean ====
section
/-! DEFINITION. What the host does to the machine between steps (60_exceptions.md R268): reset, load image,
keypad write, and the read surface. -/

namespace Sys2Proof.Machine

/-- Reset (R290): the state of R36 "whatever the state before". The count of random bytes drawn is no state
of the spec and goes on, so that no byte is drawn twice (DESIGN CHOICE, log entry 3; safe). -/
def hostReset (s : State) : State := setDraws s.draws State.reset

/-- Why a load fails (R71): "failure reasons: unreadable source, image too large". -/
inductive LoadError where
  /-- The image is empty or its source cannot be read: the rule names two reasons for three failures, and the
  empty image is put under this one (DEDUCED, log entry 15; safe). -/
  | unreadable
  /-- The image has more than 3584 bytes. -/
  | tooLarge
deriving DecidableEq, Repr

/-- The bytes of an image copied to ascending addresses from `a` (R70). -/
def copyImage (m : Memory) (a : Nat) : List Byte → Memory
  | [] => m
  | b :: bs => copyImage (m.write a b) (a + 1) bs

/-- Load image (R70, R71, R269): the new state, and the image size or the reason of the failure, in which
case the state is the old one. The source is `none` when it cannot be read. -/
def loadImage (image : Option (List Byte)) (s : State) : State × Except LoadError Nat :=
  match image with
  | none => (s, .error .unreadable)
  | some bytes =>
    if imageLengthOk bytes.length then (setMem (copyImage s.mem Config.progBase bytes) s, .ok bytes.length)
    else if bytes.length = 0 then (s, .error .unreadable)
    else (s, .error .tooLarge)

/-- A keypad write: the host may change "any of the 16 bits between any two steps, to any value" (R28). -/
def hostSetKeys (keys : BitVec 16) (s : State) : State := setKey keys s

/-- A pixel in the source's 32-bit form: on 0xFFFFFFFF, off 0x00000000 (R29, D16; UNVERIFIED,
log entry 14; unsafe for a claim about colours). -/
def pixelColor (on : Bool) : BitVec 32 := if on then 0xFFFFFFFF else 0x00000000

/-- The pixel at column `c` and row `r` (R29). -/
def pixelAt (fb : BitVec 2048) (c r : Nat) : Bool := pixel fb (c + Config.displayWidth * r)

/-- The read surface (R34). -/
structure ReadSurface where
  fb     : BitVec 2048
  x      : Vector Byte 16
  index  : Word
  pc     : Word
  stack  : Vector Word 16
  sp     : Fin 17
  opcode : Word
  dt     : Byte
  st     : Byte
  fault  : Option FaultRecord
deriving DecidableEq, Repr

/-- A read of the surface; "No read has a side effect" (R34). -/
def readSurface (s : State) : ReadSurface where
  fb := s.fb
  x := s.x
  index := s.index
  pc := s.pc
  stack := s.stack
  sp := s.sp
  opcode := s.opcode
  dt := s.dt
  st := s.st
  fault := s.fault

/-- The host's read of memory, which a claim may need (R34, D1). -/
def readMemory (s : State) (a : Nat) : Byte := s.mem.read a

end Sys2Proof.Machine
end

