-- ==== Sys2Proof/Machine/Session.lean ====
section
/-! DEFINITION. The machine under its host: the host's actions as whole units, each strictly between two
steps (20_memory.md R76, 60_exceptions.md R268), and the events they bring out. -/

namespace Sys2Proof.Machine

/-- What the host may do (R268). Reading has no effect and is no action; a write that lands inside a step
has no meaning (U13), so there is no such action. -/
inductive HostAction where
  /-- Reset (R290). -/
  | reset
  /-- Load image (R70). -/
  | load (image : Option (List Byte))
  /-- Keypad write (R28). -/
  | keys (value : BitVec 16)
  /-- One step (R120). -/
  | step
deriving DecidableEq, Repr

/-- One action. A failed load leaves the state as it was, and the machine "can be stepped afterwards exactly
as before" (R269). -/
def act : HostAction → State → Result
  | .reset, s => .next (hostReset s)
  | .load image, s => .next (loadImage image s).1
  | .keys value, s => .next (hostSetKeys value s)
  | .step, s => Sys2Proof.Machine.step s

/-- A run of actions in order. -/
def runActions : List HostAction → State → Result
  | [], s => .next s
  | a :: rest, s =>
    match act a s with
    | .next t => runActions rest t
    | .fault r => .fault r
    | .refused r => .refused r

/-- The events of a run, in order (R38). -/
def runEvents : List HostAction → State → List UnrecognizedEvent
  | [], _ => []
  | a :: rest, s =>
    (match a with
      | .step => (event s).toList
      | _ => []) ++
    (match act a s with
      | .next t => runEvents rest t
      | .fault _ => []
      | .refused _ => [])

end Sys2Proof.Machine
end

