-- ==== Sys2Proof/Safety.lean ====
section
/-! DEFINITION. The terms in which claims speak: the parts of the state and frames over them, taking a fault
from the execute stage, what a word of a table row decodes to, the invariants, and which instruction may write
which part (the "written by" column of 10_state.md R36). -/

namespace Sys2Proof.Machine

/-! ## Parts and frames -/

/-- One part of the state of R36, or the model's own count of drawn bytes. -/
inductive Part where
  | reg (r : Reg)
  | index
  | pc
  | stackEntry (k : Fin 16)
  | sp
  | dt
  | st
  | key
  | pixel (k : Nat)
  | opcode
  | byte (a : Nat)
  | fault
  | draws
deriving DecidableEq, Repr

/-- The part reads the same in both states. Memory is compared by the read of one byte, at any address. -/
def Part.Same (s t : State) : Part → Prop
  | .reg r => readReg t r = readReg s r
  | .index => t.index = s.index
  | .pc => t.pc = s.pc
  | .stackEntry k => stackAt t k = stackAt s k
  | .sp => t.sp = s.sp
  | .dt => t.dt = s.dt
  | .st => t.st = s.st
  | .key => t.key = s.key
  | .pixel k => Machine.pixel t.fb k = Machine.pixel s.fb k
  | .opcode => t.opcode = s.opcode
  | .byte a => t.mem.read a = s.mem.read a
  | .fault => t.fault = s.fault
  | .draws => t.draws = s.draws

/-- A frame: every part but those named by `may` reads in `t` as it does in `s`. -/
def Unchanged (may : Part → Prop) (s t : State) : Prop := ∀ p : Part, ¬ may p → p.Same s t

/-- The instruction takes the fault `cause` with `info` from this state: the record holds the address the
instruction was fetched from (`pc - 2`, R123) and its word, and nothing else changes (R32, R253). -/
def Raises (i : Instr) (s : State) (cause : Cause) (info : Nat) : Prop :=
  ∃ t : State, exec i s = .next t ∧ t.fault = some ⟨cause, s.pc - 2, s.opcode, info⟩ ∧
    Unchanged (fun p => p = .fault) s t

/-! ## Fields of a word as numbers, and the words of a table row -/

/-- `w[hi:lo]`, "the field of `w` from bit `hi` down to bit `lo`, both included, as an unsigned number" (R5). -/
def bitsOf (w : Word) (hi lo : Nat) : Nat := w.toNat / 2 ^ lo % 2 ^ (hi + 1 - lo)

/-- Every word of a format Z row decodes to the instruction (R92). -/
def EncodesZ (mask pattern : Word) (i : Instr) : Prop :=
  ∀ w : Word, w &&& mask = pattern → decode w = .ok i

/-- Every word of a format A row decodes to the instruction with `NNN = w[11:0]` (R91, R92). -/
def EncodesA (mask pattern : Word) (f : Addr12 → Instr) : Prop :=
  ∀ (w : Word) (nnn : Addr12), w &&& mask = pattern → nnn.toNat = bitsOf w 11 0 → decode w = .ok (f nnn)

/-- Every word of a format XI row decodes to the instruction with `X = w[11:8]`, `NN = w[7:0]` (R91, R92). -/
def EncodesXI (mask pattern : Word) (f : Reg → Byte → Instr) : Prop :=
  ∀ (w : Word) (x : Reg) (nn : Byte), w &&& mask = pattern → x.val = bitsOf w 11 8 → nn.toNat = bitsOf w 7 0 →
    decode w = .ok (f x nn)

/-- Every word of a format XY row decodes to the instruction with `X = w[11:8]`, `Y = w[7:4]` (R91, R92). -/
def EncodesXY (mask pattern : Word) (f : Reg → Reg → Instr) : Prop :=
  ∀ (w : Word) (x y : Reg), w &&& mask = pattern → x.val = bitsOf w 11 8 → y.val = bitsOf w 7 4 →
    decode w = .ok (f x y)

/-- Every word of a row with the one operand `X = w[11:8]` decodes to the instruction (R91, R92). -/
def EncodesX (mask pattern : Word) (f : Reg → Instr) : Prop :=
  ∀ (w : Word) (x : Reg), w &&& mask = pattern → x.val = bitsOf w 11 8 → decode w = .ok (f x)

/-- Every word of a format XYN row decodes to the instruction with `X`, `Y` and `N = w[3:0]` (R91, R92). -/
def EncodesXYN (mask pattern : Word) (f : Reg → Reg → Nibble → Instr) : Prop :=
  ∀ (w : Word) (x y : Reg) (n : Nibble), w &&& mask = pattern → x.val = bitsOf w 11 8 → y.val = bitsOf w 7 4 →
    n.toNat = bitsOf w 3 0 → decode w = .ok (f x y n)

/-- R100's list of the words that match no instruction, family by family, in numbers. -/
def unrecognizedWord (w : Word) : Prop :=
  (bitsOf w 15 12 = 0x0 ∧ bitsOf w 7 0 ∉ [0xE0, 0xEE]) ∨
  (bitsOf w 15 12 = 0x8 ∧ bitsOf w 3 0 ∈ [0x8, 0x9, 0xA, 0xB, 0xC, 0xD, 0xF]) ∨
  (bitsOf w 15 12 = 0xE ∧ bitsOf w 7 0 ∉ [0x9E, 0xA1]) ∨
  (bitsOf w 15 12 = 0xF ∧ bitsOf w 7 0 ∉ [0x07, 0x0A, 0x15, 0x18, 0x1E, 0x29, 0x33, 0x55, 0x65])

/-- The word in memory at `pc`: two consecutive bytes, big-endian (R63, R122). -/
def wordAtPc (s : State) : Nat := 256 * (s.mem.read s.pc.toNat).toNat + (s.mem.read (s.pc.toNat + 1)).toNat

/-! ## The end of a program (R300) -/

/-- The program has ended at address `a`: "`pc = a`, `mem[a..a+1]` holds `jump a`, and no fault is recorded"
(R300). The word of `jump a` is `0x1000 + a`, and both its bytes lie in memory (R60). THIS DOES NOT SAY that the
host stopped stepping, that the timers have reached 0, or that the display was ever read: the core never finishes
by itself, and a run ends when the host stops stepping, or when a fault latches, which is no end in this sense. -/
def ProgramEnded (a : Word) (s : State) : Prop :=
  s.pc = a ∧ a.toNat ≤ 0xFFE ∧ wordAtPc s = 0x1000 + a.toNat ∧ s.fault = none

/-! ## Sprites (R211, R212) -/

/-- The sprite bit of row `row` and column `col`: bit `7 - col` of the byte at `I + row` (R211, R212). -/
def spriteBitAt (s : State) (row col : Nat) : Prop := (s.mem.read (s.index.toNat + row)).getLsbD (7 - col) = true

/-- The pixel index of a sprite bit, `(x[X] + col) + (x[Y] + row) * 64` (R212). -/
def spriteIndex (s : State) (x y : Reg) (row col : Nat) : Nat :=
  ((readReg s x).toNat + col) + ((readReg s y).toNat + row) * 64

/-- Pixel `k` is the place of a sprite bit equal to 1 of an `n`-row sprite. -/
def spriteCovers (s : State) (x y : Reg) (n : Nat) (k : Nat) : Prop :=
  ∃ row col : Nat, row < n ∧ col < 8 ∧ spriteBitAt s row col ∧ spriteIndex s x y row col = k

/-- The row's byte lies beyond memory (R66). -/
def rowBeyondMemory (s : State) (row : Nat) : Prop := 0xFFF < s.index.toNat + row

/-- A sprite bit equal to 1 whose pixel lies beyond the display (R214). -/
def bitBeyondDisplay (s : State) (x y : Reg) (row col : Nat) : Prop :=
  spriteBitAt s row col ∧ 2047 < spriteIndex s x y row col

/-- No row before `row` raises anything (R214). -/
def rowsBeforeAreFine (s : State) (x y : Reg) (row : Nat) : Prop :=
  ∀ r : Nat, r < row → ¬ rowBeyondMemory s r ∧ ∀ c : Nat, c < 8 → ¬ bitBeyondDisplay s x y r c

/-! ## Invariants -/

/-- Memory is in its canonical form. -/
def MemoryCanonical (s : State) : Prop := s.mem.wf = true

/-- The bounds of R302: `pc <= 0x10FE`, and no return address held is above 0x1000. -/
def PcBounded (s : State) : Prop :=
  s.pc.toNat ≤ 0x10FE ∧ ∀ k : Fin 16, k.val < s.sp.val → (stackAt s k).toNat ≤ 0x1000

end Sys2Proof.Machine

namespace Sys2Proof

/-! ## Who may write what (R21, R36, R126, R252) -/

/-- The six instructions that write `x[15]` as a side effect (R21). -/
def Instr.writesFlag : Instr → Bool
  | .add _ _ | .subtract _ _ | .shiftRight _ _ | .subtractReverse _ _ | .shiftLeft _ | .drawSprite _ _ _ => true
  | .clearScreen | .ret | .jump _ | .call _ | .skipIfEqualImmediate _ _ | .skipIfNotEqualImmediate _ _
  | .skipIfRegistersEqual _ _ | .setImmediate _ _ | .addImmediate _ _ | .assign _ _ | .or _ _ | .and _ _ | .xor _ _
  | .skipIfRegistersNotEqual _ _ | .setIndex _ | .jumpWithOffset _ | .randomAnd _ _ | .skipIfKeyPressed _
  | .skipIfKeyNotPressed _ | .getDelayTimer _ | .waitForKey _ | .setDelayTimer _ | .setSoundTimer _ | .addToIndex _
  | .loadFontAddress _ | .storeBCD _ | .storeRegisters _ | .loadRegisters _ => false

/-- The register is a destination the instruction names by its operand: `x[X]`, or `x[0]..x[X]` of
load-registers (R195). -/
def Instr.namesDestination (r : Reg) : Instr → Bool
  | .setImmediate x _ | .addImmediate x _ | .assign x _ | .or x _ | .and x _ | .xor x _ | .add x _ | .subtract x _
  | .shiftRight x _ | .subtractReverse x _ | .shiftLeft x | .randomAnd x _ | .getDelayTimer x | .waitForKey x => r == x
  | .loadRegisters x => decide (r ≤ x)
  | .clearScreen | .ret | .jump _ | .call _ | .skipIfEqualImmediate _ _ | .skipIfNotEqualImmediate _ _
  | .skipIfRegistersEqual _ _ | .skipIfRegistersNotEqual _ _ | .setIndex _ | .jumpWithOffset _ | .drawSprite _ _ _
  | .skipIfKeyPressed _ | .skipIfKeyNotPressed _ | .setDelayTimer _ | .setSoundTimer _ | .addToIndex _
  | .loadFontAddress _ | .storeBCD _ | .storeRegisters _ => false

/-- How many bytes from `I` on the instruction stores (R64). -/
def Instr.bytesStored : Instr → Nat
  | .storeBCD _ => 3
  | .storeRegisters x => x.val + 1
  | _ => 0

/-- How many bytes from `I` on the instruction reads or stores (R64). -/
def Instr.bytesTouched : Instr → Nat
  | .storeBCD _ => 3
  | .storeRegisters x | .loadRegisters x => x.val + 1
  | .drawSprite _ _ n => n.toNat
  | _ => 0

/-- The instruction samples the keypad (R28, R129). -/
def Instr.readsKeypad : Instr → Bool
  | .skipIfKeyPressed _ | .skipIfKeyNotPressed _ | .waitForKey _ => true
  | _ => false

/-- The instruction reads the random byte (R33, R129). -/
def Instr.readsRandom : Instr → Bool
  | .randomAnd _ _ => true
  | _ => false

/-- The parts an instruction may write, from the "written by" column of R36; the memory bytes are those from
`I` on that it stores. -/
def Instr.mayWrite (i : Instr) (s : Machine.State) : Machine.Part → Prop
  | .reg r => i.namesDestination r = true ∨ (i.writesFlag = true ∧ r = 15)
  | .index => match i with
    | .setIndex _ | .addToIndex _ | .loadFontAddress _ => True
    | _ => False
  | .pc => match i with
    | .ret | .jump _ | .call _ | .skipIfEqualImmediate _ _ | .skipIfNotEqualImmediate _ _ | .skipIfRegistersEqual _ _
    | .skipIfRegistersNotEqual _ _ | .jumpWithOffset _ | .skipIfKeyPressed _ | .skipIfKeyNotPressed _ | .waitForKey _ => True
    | _ => False
  | .stackEntry _ => match i with
    | .call _ => True
    | _ => False
  | .sp => match i with
    | .call _ | .ret => True
    | _ => False
  | .dt => match i with
    | .setDelayTimer _ => True
    | _ => False
  | .st => match i with
    | .setSoundTimer _ => True
    | _ => False
  | .key => False
  | .pixel _ => match i with
    | .clearScreen | .drawSprite _ _ _ => True
    | _ => False
  | .opcode => False
  | .byte a => s.index.toNat ≤ a ∧ a < s.index.toNat + i.bytesStored
  | .fault => match i with
    | .ret | .call _ | .drawSprite _ _ _ | .skipIfKeyPressed _ | .skipIfKeyNotPressed _ | .loadFontAddress _ | .storeBCD _
    | .storeRegisters _ | .loadRegisters _ => True
    | _ => False
  | .draws => match i with
    | .randomAnd _ _ => True
    | _ => False

end Sys2Proof

namespace Sys2Proof.Machine

/-- The condition under which a step from this state may record a fault of this cause with this `info`: the
rows of R252's table. -/
def causeCondition (s : State) (info : Nat) : Cause → Prop
  | .fetchOutOfRange => 0xFFE < s.pc.toNat ∧ info = s.pc.toNat
  | .dataOutOfRange => ∃ (i : Instr) (k : Nat), nextInstr s = some i ∧ k < i.bytesTouched ∧ info = s.index.toNat + k ∧ 0xFFF < info
  | .stackOverflow => ∃ nnn : Addr12, nextInstr s = some (.call nnn) ∧ s.sp.val = 16 ∧ info = 16
  | .stackUnderflow => nextInstr s = some .ret ∧ s.sp.val = 0 ∧ info = 0
  | .displayOutOfRange => ∃ (x y : Reg) (n : Nibble) (row col : Nat), nextInstr s = some (.drawSprite x y n) ∧
      row < n.toNat ∧ col < 8 ∧ bitBeyondDisplay s x y row col ∧ info = spriteIndex s x y row col
  | .fontIndexInvalid => ∃ x : Reg, nextInstr s = some (.loadFontAddress x) ∧ 15 < (readReg s x).toNat ∧ info = (readReg s x).toNat
  | .keyIndexInvalid => ∃ x : Reg, (nextInstr s = some (.skipIfKeyPressed x) ∨ nextInstr s = some (.skipIfKeyNotPressed x)) ∧
      15 < (readReg s x).toNat ∧ info = (readReg s x).toNat

end Sys2Proof.Machine
end

