-- ==== Sys2Proof/Certificates/Slice0/Obligations.lean ====
section
/-! DEFINITION. The statements for the provers. Each docstring names the rule of spec/ it formalises. Every
statement about an instruction is about the execute stage, where `pc` is the fetch address plus 2 (R123), and
opens with the words its opcode-table row decodes to it: the `match` and `mask` of the instruction's own rule, whose
numbers the spec marks as its own decisions (D2, D3, D4; log entry 9). A raise is recorded as R6 and R253 say
(decisions D6 and D26 of the spec; log entries 6 and 7). -/

open Sys2Proof Sys2Proof.Machine

/-! ## Encoding -/

/-- R101, R102: decoding the canonical word of any instruction gives the instruction back, at every value of
every operand. -/
def Obligations.DecodeInvertsEncode : Prop := ∀ i : Instr, decode (encode i) = .ok i

/-- R100: "The words that match no instruction are exactly" those of its list. -/
def Obligations.UnrecognizedWordsAreExactlyThese : Prop :=
  ∀ w : Word, (∃ r : Reject, decode w = .error r) ↔ unrecognizedWord w

/-- R101: a word decodes to an instruction exactly when it matches a row of spec/opcode_table.json, and the
row that matches it is that instruction's and no other. -/
def Obligations.DecodeFollowsOpcodeTable : Prop :=
  ∀ w : Word,
    ((∃ i : Instr, decode w = .ok i) ↔ ∃ row ∈ opcodeTable, w &&& row.mask = row.pattern) ∧
    ∀ i : Instr, decode w = .ok i → ∀ row ∈ opcodeTable, (w &&& row.mask = row.pattern ↔ row.mnemonic = i.mnemonic)

/-- A few words written out from the encoding tables of R94 to R98 (with ignored bits set, R99, in three of
them) decode to what they stand for. -/
def Obligations.WorkedWordsDecode : Prop :=
  decode 0x07EE = .ok .ret ∧ decode 0x1ABC = .ok (.jump 0xABC) ∧ decode 0x6A7F = .ok (.setImmediate 10 0x7F) ∧
  decode 0x812E = .ok (.shiftLeft 1) ∧ decode 0x9127 = .ok (.skipIfRegistersNotEqual 1 2) ∧
  decode 0xD125 = .ok (.drawSprite 1 2 5) ∧ decode 0xE2A1 = .ok (.skipIfKeyNotPressed 2) ∧
  decode 0xF265 = .ok (.loadRegisters 2) ∧ decode 0x8128 = .error .unrecognizedFamily8

/-! ## The step -/

/-- R120, R122, R123, R127, R128: when the bytes at `pc` decode to an instruction, the step is that
instruction executed with `opcode` the word and `pc` advanced by 2; without a fault both timers then tick, with
a fault everything but the latch is as it was. -/
def Obligations.StepRunsDecodedInstruction : Prop :=
  ∀ (s : State) (w : Word) (i : Instr), s.fault = none → s.pc.toNat ≤ 0xFFE → w.toNat = wordAtPc s → decode w = .ok i →
    step s = match exec i { s with opcode := w, pc := s.pc + 2 } with
      | .next u => match u.fault with
        | none => .next { u with
            dt := BitVec.ofNat 8 (u.dt.toNat - 1)
            st := BitVec.ofNat 8 (u.st.toNat - 1) }
        | some f => .next { s with fault := some f }
      | .fault r => .fault r
      | .refused r => .refused r

/-- R254: a machine with a fault latched is not changed by any number of steps and emits nothing (R121); the
host's loads, keypad writes and reads still work on it and do not clear the latch, and a reset does. -/
def Obligations.HaltedMachineNeverChanges : Prop :=
  ∀ (s : State) (f : FaultRecord), s.fault = some f →
    (∀ n : Nat, core.run n s = .next s) ∧ event s = none ∧
    (∀ image : Option (List Byte), ∃ t : State, act (.load image) s = .next t ∧ t.fault = some f ∧
      ∀ bytes : List Byte, image = some bytes → bytes.length ≤ 3584 →
        ∀ (k : Nat) (h : k < bytes.length), readMemory t (0x200 + k) = bytes[k]) ∧
    (∀ keys : BitVec 16, ∃ t : State, act (.keys keys) s = .next t ∧ t.fault = some f ∧ t.key = keys) ∧
    (readSurface s).fault = some f ∧ (readSurface s).pc = s.pc ∧
    (∃ t : State, act .reset s = .next t ∧ t.fault = none)

/-- R66, R122, R128: a fetch above 0xFFE records FetchOutOfRange with word 0, changes nothing else, and emits
nothing. -/
def Obligations.FetchBeyondMemoryFaults : Prop :=
  ∀ s : State, s.fault = none → 0xFFE < s.pc.toNat →
    step s = .next { s with fault := some ⟨.fetchOutOfRange, s.pc, 0, s.pc.toNat⟩ } ∧ event s = none

/-- R125, R251, R38: an unrecognized word is a reported no-op: the event carries the word and its address,
`opcode` and `pc` are written, the timers tick, and nothing else changes, the latch included. -/
def Obligations.UnrecognizedWordIsReportedNoOp : Prop :=
  ∀ (s : State) (w : Word), s.fault = none → s.pc.toNat ≤ 0xFFE → w.toNat = wordAtPc s → unrecognizedWord w →
    event s = some ⟨w, s.pc⟩ ∧
    ∃ t : State, step s = .next t ∧ t.opcode = w ∧ t.pc.toNat = s.pc.toNat + 2 ∧
      t.dt.toNat = s.dt.toNat - 1 ∧ t.st.toNat = s.st.toNat - 1 ∧
      Unchanged (fun p => p = .pc ∨ p = .opcode ∨ p = .dt ∨ p = .st) s t

/-- R120, R130: every instruction from every state, and every step, answers a next state. -/
def Obligations.EveryStepAnswers : Prop :=
  (∀ (i : Instr) (s : State), ∃ t : State, exec i s = .next t) ∧ ∀ s : State, ∃ t : State, step s = .next t

/-- R128, R253 (decision D26 of the spec): a step that faults changes only the latch, which holds the instruction's address and its word,
or word 0 when the fetch is what failed. -/
def Obligations.FaultingStepIsPrecise : Prop :=
  ∀ (s t : State) (f : FaultRecord), s.fault = none → step s = .next t → t.fault = some f →
    t = { s with fault := some f } ∧ f.addr = s.pc ∧
    (if f.cause = .fetchOutOfRange then f.word = 0 else f.word.toNat = wordAtPc s)

/-- R127: a step that completes leaves each timer one lower, or at 0, than the value its instruction left;
only the two set-timer instructions write one. A step that faults and a halted step leave both. -/
def Obligations.TimersTickOnceAStep : Prop :=
  ∀ s t : State, step s = .next t →
    (t.fault = none →
      t.dt.toNat = (match nextInstr s with
        | some (.setDelayTimer x) => (readReg s x).toNat
        | _ => s.dt.toNat) - 1 ∧
      t.st.toNat = (match nextInstr s with
        | some (.setSoundTimer x) => (readReg s x).toNat
        | _ => s.st.toNat) - 1) ∧
    (t.fault ≠ none → t.dt = s.dt ∧ t.st = s.st)

/-- R21: `x[15]` is written as a side effect by six instructions only, and each then leaves 0 or 1 in it. -/
def Obligations.FlagWrittenByExactlySix : Prop :=
  ∀ (i : Instr) (s t : State), exec i s = .next t → i.namesDestination 15 = false →
    (i.writesFlag = false → readReg t 15 = readReg s 15) ∧
    (i.writesFlag = true → s.fault = none → t.fault = none → readReg t 15 = 0 ∨ readReg t 15 = 1)

/-- R126, R36: an instruction leaves unchanged every part that the "written by" column of R36 does not name it
for; in particular none writes the keypad or `opcode`. -/
def Obligations.PartsHaveTheirWriters : Prop :=
  ∀ (i : Instr) (s t : State), exec i s = .next t → Unchanged (i.mayWrite s) s t

/-- R252 (decision D6 of the spec): a step records a fault only under the condition of its cause's row, by an instruction of that row,
with the row's `info`. -/
def Obligations.FaultCausesHaveTheirConditions : Prop :=
  ∀ (s t : State) (f : FaultRecord), s.fault = none → step s = .next t → t.fault = some f →
    causeCondition s f.info f.cause

/-- The model's form of memory (a choice of the model: log entry 5): every step keeps it canonical. -/
def Obligations.StepKeepsMemoryCanonical : Prop :=
  ∀ s t : State, MemoryCanonical s → step s = .next t → MemoryCanonical t

/-- R302 (which the spec marks as derived from other rules): every step keeps `pc` at most 0x10FE and every held
return address at most 0x1000. -/
def Obligations.StepKeepsPcBounded : Prop :=
  ∀ s t : State, PcBounded s → step s = .next t → PcBounded t

/-- The two invariants hold right after reset. -/
def Obligations.ResetMeetsInvariants : Prop := MemoryCanonical State.reset ∧ PcBounded State.reset

/-- R302: "In every reachable unfaulted state `pc <= 0x10FE`", whatever the host does between steps (and in
faulted ones too, since a fault leaves `pc`). -/
def Obligations.ReachablePcBounded : Prop :=
  ∀ (actions : List HostAction) (s : State), runActions actions State.reset = .next s → s.pc.toNat ≤ 0x10FE

/-- R290, R36: every piece of state of the spec has its table value after reset, whatever the state before
(decision D21 of the spec); the font bytes are those of the parameter FONT_ROM (log entry 2), and glyph A is named. -/
def Obligations.ResetLeavesTheTableValues : Prop :=
  ∀ s t : State, (t = State.reset ∨ act .reset s = .next t) →
    (∀ r : Reg, readReg t r = 0) ∧ t.index = 0 ∧ t.pc = 0x200 ∧ (∀ k : Fin 16, stackAt t k = 0) ∧ t.sp.val = 0 ∧
    t.dt = 0 ∧ t.st = 0 ∧ t.key = 0 ∧ (∀ k : Nat, k < 2048 → pixel t.fb k = false) ∧ t.opcode = 0 ∧ t.fault = none ∧
    (∀ a : Nat, a < 4096 → ¬ (0x050 ≤ a ∧ a ≤ 0x09F) → t.mem.read a = 0) ∧
    (∀ (k : Nat) (h : k < fontRom.length), k < 80 → t.mem.read (0x050 + k) = fontRom[k]) ∧
    [t.mem.read 0x082, t.mem.read 0x083, t.mem.read 0x084, t.mem.read 0x085, t.mem.read 0x086] = [0xF0, 0x90, 0xF0, 0x90, 0x90]

/-- R70: an image of 1 to 3584 bytes is copied to 0x200 on, its size is reported, and nothing else changes, the
bytes above the image included (decision D18 of the spec). -/
def Obligations.LoadImageCopiesBytes : Prop :=
  ∀ (bytes : List Byte) (s : State), 1 ≤ bytes.length → bytes.length ≤ 3584 →
    ∃ t : State, loadImage (some bytes) s = (t, .ok bytes.length) ∧
      (∀ (k : Nat) (h : k < bytes.length), t.mem.read (0x200 + k) = bytes[k]) ∧
      Unchanged (fun p => ∃ k : Nat, k < bytes.length ∧ p = .byte (0x200 + k)) s t

/-- R71: a load of an unreadable, empty or too long image is reported and leaves the state exactly as it was. -/
def Obligations.RejectedLoadChangesNothing : Prop :=
  ∀ s : State, loadImage none s = (s, .error .unreadable) ∧ (∃ r : LoadError, loadImage (some []) s = (s, .error r)) ∧
    ∀ bytes : List Byte, 3584 < bytes.length → loadImage (some bytes) s = (s, .error .tooLarge)

/-- R292, program P6: the machine into which nothing was loaded reports one unrecognized word 0x0000 a step,
slides two bytes forward each time, and faults in its 1793rd step. -/
def Obligations.EmptyMachineSlidesToItsEnd : Prop :=
  (∀ k : Nat, k ≤ 1792 → core.run k State.reset = .next { State.reset with pc := BitVec.ofNat 16 (0x200 + 2 * k) }) ∧
  (∀ k : Nat, k < 1792 → event { State.reset with pc := BitVec.ofNat 16 (0x200 + 2 * k) } = some ⟨0x0000, BitVec.ofNat 16 (0x200 + 2 * k)⟩) ∧
  core.run 1793 State.reset = .next { State.reset with
    pc := 0x1000
    fault := some ⟨.fetchOutOfRange, 0x1000, 0x0000, 0x1000⟩ }

/-- R300: once the program has ended (`ProgramEnded`, which does not say that the host stopped stepping, that the
timers are at 0, or that the display was read), a step leaves `pc`, writes `opcode` with the jump's word and ticks
the timers, no more; it has still ended after any number of steps, with the timers that many lower or at 0; once
both timers are 0 and `opcode` holds the word, the state is a fixed point of the step. -/
def Obligations.JumpToItselfOnlyTicks : Prop :=
  ∀ (s : State) (a : Word), ProgramEnded a s →
    (∃ t : State, step s = .next t ∧ t.opcode.toNat = 0x1000 + a.toNat ∧ t.dt.toNat = s.dt.toNat - 1 ∧
      t.st.toNat = s.st.toNat - 1 ∧ Unchanged (fun p => p = .opcode ∨ p = .dt ∨ p = .st) s t) ∧
    (∀ n : Nat, ∃ t : State, core.run n s = .next t ∧ ProgramEnded a t ∧ t.dt.toNat = s.dt.toNat - n ∧
      t.st.toNat = s.st.toNat - n ∧ Unchanged (fun p => p = .opcode ∨ p = .dt ∨ p = .st) s t) ∧
    (s.dt = 0 → s.st = 0 → s.opcode.toNat = 0x1000 + a.toNat → step s = .next s)

/-- R67, R60: a read or write above 0xFFF raises DataOutOfRange with the address; in range a read after a write
gives the byte written at its address and the old byte at every other. -/
def Obligations.MemoryReadsLatestWrite : Prop :=
  ∀ (m : Memory) (a : Nat) (v : Byte),
    (0xFFF < a → memRead m a = .error ⟨.dataOutOfRange, a⟩ ∧ memWrite m a v = .error ⟨.dataOutOfRange, a⟩) ∧
    (a ≤ 0xFFF → memRead m a = .ok (m.read a) ∧
      ∃ m' : Memory, memWrite m a v = .ok m' ∧ ∀ b : Nat, m'.read b = if b = a then v else m.read b)

/-- R75 (derived, as the spec says, from R60, R73 and R122): bytes stored by store-registers are the word the next fetch of that address returns. -/
def Obligations.StoresReachTheNextFetch : Prop :=
  ∀ (s t : State) (x : Reg), 1 ≤ x.val → s.index.toNat + x.val ≤ 0xFFF → exec (.storeRegisters x) s = .next t →
    ∃ w : Word, fetch (setPc s.index t) = .ok w ∧ w.toNat = 256 * (readReg s 0).toNat + (readReg s 1).toNat

/-- R129: a step that executes no keypad instruction ignores the keypad, and one that executes no random-and
ignores the random byte: whatever other value each has, the step is the same but for it. -/
def Obligations.InputsReachOnlyTheirInstructions : Prop :=
  ∀ s t : State, step s = .next t →
    (∀ keys : BitVec 16, (∀ i : Instr, nextInstr s = some i → i.readsKeypad = false) →
      step (hostSetKeys keys s) = .next (hostSetKeys keys t)) ∧
    (∀ n : Nat, (∀ i : Instr, nextInstr s = some i → i.readsRandom = false) →
      step (setDraws n s) = .next (setDraws n t))

/-! ## Control transfer (41_control_flow.md) -/

/-- R140: return pops the entry below `sp` into `pc` and leaves the entry in place; an empty stack is
StackUnderflow(0). -/
def Obligations.ReturnPops : Prop :=
  EncodesZ 0xF0FF 0x00EE .ret ∧
  (∀ (s : State) (k : Fin 16), s.sp.val = k.val + 1 →
    ∃ t : State, exec .ret s = .next t ∧ t.sp.val = k.val ∧ t.pc = stackAt s k ∧
      Unchanged (fun p => p = .pc ∨ p = .sp) s t) ∧
  (∀ s : State, s.sp.val = 0 → Raises .ret s .stackUnderflow 0)

/-- R141: jump sets `pc` to `NNN`, the +2 of fetch not entering it. -/
def Obligations.JumpSetsPc : Prop :=
  EncodesA 0xF000 0x1000 .jump ∧
  ∀ (s : State) (nnn : Addr12), ∃ t : State, exec (.jump nnn) s = .next t ∧ t.pc.toNat = nnn.toNat ∧
    Unchanged (fun p => p = .pc) s t

/-- R142: call pushes the advanced `pc`, raises `sp` by one and sets `pc` to `NNN`; a full stack is
StackOverflow(16). -/
def Obligations.CallPushes : Prop :=
  EncodesA 0xF000 0x2000 .call ∧
  (∀ (s : State) (nnn : Addr12) (k : Fin 16), s.sp.val = k.val →
    ∃ t : State, exec (.call nnn) s = .next t ∧ stackAt t k = s.pc ∧ t.sp.val = k.val + 1 ∧ t.pc.toNat = nnn.toNat ∧
      Unchanged (fun p => p = .stackEntry k ∨ p = .sp ∨ p = .pc) s t) ∧
  (∀ (s : State) (nnn : Addr12), s.sp.val = 16 → Raises (.call nnn) s .stackOverflow 16)

/-- R143: skip when the register equals the immediate. -/
def Obligations.SkipIfEqualImmediateTests : Prop :=
  EncodesXI 0xF000 0x3000 .skipIfEqualImmediate ∧
  ∀ (s : State) (x : Reg) (nn : Byte), ∃ t : State, exec (.skipIfEqualImmediate x nn) s = .next t ∧
    t.pc.toNat = (if (readReg s x).toNat = nn.toNat then (s.pc.toNat + 2) % 65536 else s.pc.toNat) ∧
    Unchanged (fun p => p = .pc) s t

/-- R144: skip when the register differs from the immediate. -/
def Obligations.SkipIfNotEqualImmediateTests : Prop :=
  EncodesXI 0xF000 0x4000 .skipIfNotEqualImmediate ∧
  ∀ (s : State) (x : Reg) (nn : Byte), ∃ t : State, exec (.skipIfNotEqualImmediate x nn) s = .next t ∧
    t.pc.toNat = (if (readReg s x).toNat = nn.toNat then s.pc.toNat else (s.pc.toNat + 2) % 65536) ∧
    Unchanged (fun p => p = .pc) s t

/-- R145: skip when the registers are equal; `w[3:0]` is ignored. -/
def Obligations.SkipIfRegistersEqualTests : Prop :=
  EncodesXY 0xF000 0x5000 .skipIfRegistersEqual ∧
  ∀ (s : State) (x y : Reg), ∃ t : State, exec (.skipIfRegistersEqual x y) s = .next t ∧
    t.pc.toNat = (if (readReg s x).toNat = (readReg s y).toNat then (s.pc.toNat + 2) % 65536 else s.pc.toNat) ∧
    Unchanged (fun p => p = .pc) s t

/-- R146: skip when the registers differ; `w[3:0]` is ignored. -/
def Obligations.SkipIfRegistersNotEqualTests : Prop :=
  EncodesXY 0xF000 0x9000 .skipIfRegistersNotEqual ∧
  ∀ (s : State) (x y : Reg), ∃ t : State, exec (.skipIfRegistersNotEqual x y) s = .next t ∧
    t.pc.toNat = (if (readReg s x).toNat = (readReg s y).toNat then s.pc.toNat else (s.pc.toNat + 2) % 65536) ∧
    Unchanged (fun p => p = .pc) s t

/-- R147: jump-with-offset adds `x[0]` to `NNN`; the sum is not reduced to 12 bits, and cannot reach 65536. -/
def Obligations.JumpWithOffsetAddsRegisterZero : Prop :=
  EncodesA 0xF000 0xB000 .jumpWithOffset ∧
  ∀ (s : State) (nnn : Addr12), ∃ t : State, exec (.jumpWithOffset nnn) s = .next t ∧
    t.pc.toNat = ((readReg s 0).toNat + nnn.toNat) % 65536 ∧ t.pc.toNat ≤ 0x10FE ∧ Unchanged (fun p => p = .pc) s t

/-! ## Register load, arithmetic, logic, shifts, random (42_alu.md) -/

/-- R160: set-immediate. -/
def Obligations.SetImmediateWrites : Prop :=
  EncodesXI 0xF000 0x6000 .setImmediate ∧
  ∀ (s : State) (x : Reg) (nn : Byte), ∃ t : State, exec (.setImmediate x nn) s = .next t ∧ readReg t x = nn ∧
    Unchanged (fun p => p = .reg x) s t

/-- R161: add-immediate wraps modulo 256 and writes no flag. -/
def Obligations.AddImmediateWraps : Prop :=
  EncodesXI 0xF000 0x7000 .addImmediate ∧
  ∀ (s : State) (x : Reg) (nn : Byte), ∃ t : State, exec (.addImmediate x nn) s = .next t ∧
    (readReg t x).toNat = ((readReg s x).toNat + nn.toNat) % 256 ∧ Unchanged (fun p => p = .reg x) s t

/-- R162: assign. -/
def Obligations.AssignCopies : Prop :=
  EncodesXY 0xF00F 0x8000 .assign ∧
  ∀ (s : State) (x y : Reg), ∃ t : State, exec (.assign x y) s = .next t ∧ readReg t x = readReg s y ∧
    Unchanged (fun p => p = .reg x) s t

/-- R163, R164, R165: or, and, xor combine bit by bit into `x[X]` and write no flag. -/
def Obligations.LogicCombinesBitwise : Prop :=
  (EncodesXY 0xF00F 0x8001 .or ∧ ∀ (s : State) (x y : Reg), ∃ t : State, exec (.or x y) s = .next t ∧
    (∀ b : Nat, (readReg t x).getLsbD b = ((readReg s x).getLsbD b || (readReg s y).getLsbD b)) ∧
    Unchanged (fun p => p = .reg x) s t) ∧
  (EncodesXY 0xF00F 0x8002 .and ∧ ∀ (s : State) (x y : Reg), ∃ t : State, exec (.and x y) s = .next t ∧
    (∀ b : Nat, (readReg t x).getLsbD b = ((readReg s x).getLsbD b && (readReg s y).getLsbD b)) ∧
    Unchanged (fun p => p = .reg x) s t) ∧
  (EncodesXY 0xF00F 0x8003 .xor ∧ ∀ (s : State) (x y : Reg), ∃ t : State, exec (.xor x y) s = .next t ∧
    (∀ b : Nat, (readReg t x).getLsbD b = ((readReg s x).getLsbD b ^^ (readReg s y).getLsbD b)) ∧
    Unchanged (fun p => p = .reg x) s t)

/-- R166: add forms the sum of the old values; `x[X]` ends as its low 8 bits, also when `X = 15`, and `x[15]`
otherwise as the carry. -/
def Obligations.AddSetsCarry : Prop :=
  EncodesXY 0xF00F 0x8004 .add ∧
  ∀ (s : State) (x y : Reg), ∃ t : State, exec (.add x y) s = .next t ∧
    (readReg t x).toNat = ((readReg s x).toNat + (readReg s y).toNat) % 256 ∧
    (x ≠ 15 → (readReg t 15).toNat = if (readReg s x).toNat + (readReg s y).toNat > 255 then 1 else 0) ∧
    Unchanged (fun p => p = .reg x ∨ p = .reg 15) s t

/-- R167: subtract writes the no-borrow flag `f` first; the difference reads `f` for whichever operand is
`x[15]`, and overwrites it when `X = 15`. -/
def Obligations.SubtractSetsNoBorrow : Prop :=
  EncodesXY 0xF00F 0x8005 .subtract ∧
  ∀ (s : State) (x y : Reg) (f : Nat), f = (if (readReg s x).toNat ≥ (readReg s y).toNat then 1 else 0) →
    ∃ t : State, exec (.subtract x y) s = .next t ∧
      (readReg t x).toNat = ((if x = 15 then f else (readReg s x).toNat) + 256 - (if y = 15 then f else (readReg s y).toNat)) % 256 ∧
      (x ≠ 15 → (readReg t 15).toNat = f) ∧ Unchanged (fun p => p = .reg x ∨ p = .reg 15) s t

/-- R168: shift-right writes bit 0 of `x[Y]` to the flag first, then `x[Y] >> 1` to `x[X]`, reading the flag
when `Y = 15`. -/
def Obligations.ShiftRightReadsY : Prop :=
  EncodesXY 0xF00F 0x8006 .shiftRight ∧
  ∀ (s : State) (x y : Reg) (f : Nat), f = (readReg s y).toNat % 2 →
    ∃ t : State, exec (.shiftRight x y) s = .next t ∧
      (readReg t x).toNat = (if y = 15 then f else (readReg s y).toNat) / 2 ∧
      (x ≠ 15 → (readReg t 15).toNat = f) ∧ Unchanged (fun p => p = .reg x ∨ p = .reg 15) s t

/-- R169: subtract-reverse writes the strict flag first, so equal operands leave flag 0; the difference `Y - X`
reads the flag for whichever operand is `x[15]`. -/
def Obligations.SubtractReverseSetsStrictFlag : Prop :=
  EncodesXY 0xF00F 0x8007 .subtractReverse ∧
  ∀ (s : State) (x y : Reg) (f : Nat), f = (if (readReg s y).toNat > (readReg s x).toNat then 1 else 0) →
    ∃ t : State, exec (.subtractReverse x y) s = .next t ∧
      (readReg t x).toNat = ((if y = 15 then f else (readReg s y).toNat) + 256 - (if x = 15 then f else (readReg s x).toNat)) % 256 ∧
      (x ≠ 15 → (readReg t 15).toNat = f) ∧ Unchanged (fun p => p = .reg x ∨ p = .reg 15) s t

/-- R170: shift-left writes bit 7 of `x[X]` to the flag first, then `x[X] << 1` modulo 256, reading the flag
when `X = 15`; `Y` is ignored. -/
def Obligations.ShiftLeftReadsX : Prop :=
  EncodesX 0xF00F 0x800E .shiftLeft ∧
  ∀ (s : State) (x : Reg) (f : Nat), f = (readReg s x).toNat / 128 →
    ∃ t : State, exec (.shiftLeft x) s = .next t ∧
      (readReg t x).toNat = (if x = 15 then f else (readReg s x).toNat) * 2 % 256 ∧
      (x ≠ 15 → (readReg t 15).toNat = f) ∧ Unchanged (fun p => p = .reg x ∨ p = .reg 15) s t

/-- R171: random-and writes `rnd and NN`. The byte `rnd` is the model's free value at the number of bytes drawn
before (log entries 1 and 3), one byte is drawn, and the clause on bits outside `NN` holds for every byte. -/
def Obligations.RandomAndMasksTheByte : Prop :=
  EncodesXI 0xF000 0xC000 .randomAnd ∧
  ∀ (s : State) (x : Reg) (nn : Byte), ∃ t : State, exec (.randomAnd x nn) s = .next t ∧
    (∀ b : Nat, (readReg t x).getLsbD b = ((Config.rnd s.draws).getLsbD b && nn.getLsbD b)) ∧
    t.draws = s.draws + 1 ∧ Unchanged (fun p => p = .reg x ∨ p = .draws) s t

/-! ## Index register and memory (43_index_memory.md) -/

/-- R190: set-index. -/
def Obligations.SetIndexWrites : Prop :=
  EncodesA 0xF000 0xA000 .setIndex ∧
  ∀ (s : State) (nnn : Addr12), ∃ t : State, exec (.setIndex nnn) s = .next t ∧ t.index.toNat = nnn.toNat ∧
    Unchanged (fun p => p = .index) s t

/-- R191: add-to-index wraps modulo 65536 (the spec's decision D14) and writes no flag. -/
def Obligations.AddToIndexWraps : Prop :=
  EncodesX 0xF0FF 0xF01E .addToIndex ∧
  ∀ (s : State) (x : Reg), ∃ t : State, exec (.addToIndex x) s = .next t ∧
    t.index.toNat = (s.index.toNat + (readReg s x).toNat) % 65536 ∧ Unchanged (fun p => p = .index) s t

/-- R192: load-font-address computes `0x050 + 5 * x[X]`; a value above 15 is FontIndexInvalid with that value. -/
def Obligations.LoadFontAddressChecksDigit : Prop :=
  EncodesX 0xF0FF 0xF029 .loadFontAddress ∧
  (∀ (s : State) (x : Reg), (readReg s x).toNat ≤ 15 → ∃ t : State, exec (.loadFontAddress x) s = .next t ∧
    t.index.toNat = 0x050 + 5 * (readReg s x).toNat ∧ Unchanged (fun p => p = .index) s t) ∧
  (∀ (s : State) (x : Reg), 15 < (readReg s x).toNat → Raises (.loadFontAddress x) s .fontIndexInvalid (readReg s x).toNat)

/-- R193: store-BCD writes the hundreds, tens and ones digits at `I`, `I+1`, `I+2` and nothing else; the first
address above 0xFFF is DataOutOfRange, with no byte written. -/
def Obligations.StoreBcdWritesDigits : Prop :=
  EncodesX 0xF0FF 0xF033 .storeBCD ∧
  (∀ (s : State) (x : Reg), s.index.toNat + 2 ≤ 0xFFF → ∃ t : State, exec (.storeBCD x) s = .next t ∧
    (t.mem.read s.index.toNat).toNat = (readReg s x).toNat / 100 ∧
    (t.mem.read (s.index.toNat + 1)).toNat = (readReg s x).toNat / 10 % 10 ∧
    (t.mem.read (s.index.toNat + 2)).toNat = (readReg s x).toNat % 10 ∧
    Unchanged (fun p => ∃ k : Nat, k < 3 ∧ p = .byte (s.index.toNat + k)) s t) ∧
  (∀ (s : State) (x : Reg) (k : Nat), k < 3 → 0xFFF < s.index.toNat + k → (∀ j : Nat, j < k → s.index.toNat + j ≤ 0xFFF) →
    Raises (.storeBCD x) s .dataOutOfRange (s.index.toNat + k))

/-- R194: store-registers writes `x[0]..x[X]` at `I..I+X` and nothing else; the lowest address above 0xFFF is
DataOutOfRange, with no byte written. -/
def Obligations.StoreRegistersWritesRange : Prop :=
  EncodesX 0xF0FF 0xF055 .storeRegisters ∧
  (∀ (s : State) (x : Reg), s.index.toNat + x.val ≤ 0xFFF → ∃ t : State, exec (.storeRegisters x) s = .next t ∧
    (∀ r : Reg, r ≤ x → t.mem.read (s.index.toNat + r.val) = readReg s r) ∧
    Unchanged (fun p => ∃ r : Reg, r ≤ x ∧ p = .byte (s.index.toNat + r.val)) s t) ∧
  (∀ (s : State) (x : Reg) (k : Nat), k ≤ x.val → 0xFFF < s.index.toNat + k → (∀ j : Nat, j < k → s.index.toNat + j ≤ 0xFFF) →
    Raises (.storeRegisters x) s .dataOutOfRange (s.index.toNat + k))

/-- R195: load-registers reads `I..I+X` into `x[0]..x[X]` and changes nothing else; the lowest address above
0xFFF is DataOutOfRange, with no register written. -/
def Obligations.LoadRegistersReadsRange : Prop :=
  EncodesX 0xF0FF 0xF065 .loadRegisters ∧
  (∀ (s : State) (x : Reg), s.index.toNat + x.val ≤ 0xFFF → ∃ t : State, exec (.loadRegisters x) s = .next t ∧
    (∀ r : Reg, r ≤ x → readReg t r = s.mem.read (s.index.toNat + r.val)) ∧
    Unchanged (fun p => ∃ r : Reg, r ≤ x ∧ p = .reg r) s t) ∧
  (∀ (s : State) (x : Reg) (k : Nat), k ≤ x.val → 0xFFF < s.index.toNat + k → (∀ j : Nat, j < k → s.index.toNat + j ≤ 0xFFF) →
    Raises (.loadRegisters x) s .dataOutOfRange (s.index.toNat + k))

/-! ## Display (44_display.md) -/

/-- R210: clear-screen turns every pixel off and changes nothing else. -/
def Obligations.ClearScreenClears : Prop :=
  EncodesZ 0xF0FF 0x00E0 .clearScreen ∧
  ∀ s : State, ∃ t : State, exec .clearScreen s = .next t ∧ (∀ k : Nat, k < 2048 → pixel t.fb k = false) ∧
    Unchanged (fun p => ∃ k : Nat, k < 2048 ∧ p = .pixel k) s t

/-- R211, R212, R213: with every row in memory and every 1 bit on the display, draw-sprite flips exactly the
pixels its 1 bits fall on, sets `x[15]` to 1 when one of those was on and to 0 otherwise, and changes nothing
else; zero rows draw nothing and leave flag 0. The bit order, the linear index and the case of zero rows are
decisions the spec marks as its own (D7, D8, D25; log entry 11). -/
def Obligations.DrawSpriteXorsThePixels : Prop :=
  EncodesXYN 0xF000 0xD000 .drawSprite ∧
  ∀ (s : State) (x y : Reg) (n : Nibble),
    (∀ row : Nat, row < n.toNat → ¬ rowBeyondMemory s row ∧ ∀ col : Nat, col < 8 → ¬ bitBeyondDisplay s x y row col) →
    ∃ t : State, exec (.drawSprite x y n) s = .next t ∧
      (∀ k : Nat, k < 2048 → (pixel t.fb k = true ↔ (pixel s.fb k = true ↔ ¬ spriteCovers s x y n.toNat k))) ∧
      ((∃ k : Nat, spriteCovers s x y n.toNat k ∧ pixel s.fb k = true) → readReg t 15 = 1) ∧
      ((¬ ∃ k : Nat, spriteCovers s x y n.toNat k ∧ pixel s.fb k = true) → readReg t 15 = 0) ∧
      Unchanged (fun p => p = .reg 15 ∨ ∃ k : Nat, spriteCovers s x y n.toNat k ∧ p = .pixel k) s t

/-- R214: the first raise in the loop order of R211 is the fault of the draw: a row beyond memory when all rows
before it are fine, or a 1 bit beyond the display when all rows before its row and all columns before its column
are fine. That both are faults is the spec's own decision (D6, D7, D10; log entry 7). -/
def Obligations.DrawSpriteFaultsInLoopOrder : Prop :=
  (∀ (s : State) (x y : Reg) (n : Nibble) (row : Nat), row < n.toNat → rowsBeforeAreFine s x y row → rowBeyondMemory s row →
    Raises (.drawSprite x y n) s .dataOutOfRange (s.index.toNat + row)) ∧
  (∀ (s : State) (x y : Reg) (n : Nibble) (row col : Nat), row < n.toNat → rowsBeforeAreFine s x y row →
    ¬ rowBeyondMemory s row → col < 8 → (∀ c : Nat, c < col → ¬ bitBeyondDisplay s x y row c) → bitBeyondDisplay s x y row col →
    Raises (.drawSprite x y n) s .displayOutOfRange (spriteIndex s x y row col))

/-! ## Keypad and timers (45_keypad_timers.md) -/

/-- R230, R236: skip when the key that the register names is down; a value above 15 is KeyIndexInvalid. -/
def Obligations.SkipIfKeyPressedTests : Prop :=
  EncodesX 0xF0FF 0xE09E .skipIfKeyPressed ∧
  (∀ (s : State) (x : Reg), (readReg s x).toNat ≤ 15 → ∃ t : State, exec (.skipIfKeyPressed x) s = .next t ∧
    t.pc.toNat = (if s.key.getLsbD (readReg s x).toNat = true then (s.pc.toNat + 2) % 65536 else s.pc.toNat) ∧
    Unchanged (fun p => p = .pc) s t) ∧
  (∀ (s : State) (x : Reg), 15 < (readReg s x).toNat → Raises (.skipIfKeyPressed x) s .keyIndexInvalid (readReg s x).toNat)

/-- R231, R236: skip when the key that the register names is up; a value above 15 is KeyIndexInvalid. -/
def Obligations.SkipIfKeyNotPressedTests : Prop :=
  EncodesX 0xF0FF 0xE0A1 .skipIfKeyNotPressed ∧
  (∀ (s : State) (x : Reg), (readReg s x).toNat ≤ 15 → ∃ t : State, exec (.skipIfKeyNotPressed x) s = .next t ∧
    t.pc.toNat = (if s.key.getLsbD (readReg s x).toNat = true then s.pc.toNat else (s.pc.toNat + 2) % 65536) ∧
    Unchanged (fun p => p = .pc) s t) ∧
  (∀ (s : State) (x : Reg), 15 < (readReg s x).toNat → Raises (.skipIfKeyNotPressed x) s .keyIndexInvalid (readReg s x).toNat)

/-- R232: with no key down `pc` goes back by 2 and nothing else changes; else the lowest key down is written to
`x[X]` and `pc` stays. That it is the lowest is the spec's own decision (D12; log entry 12). -/
def Obligations.WaitForKeyReplaysOrTakesLowest : Prop :=
  EncodesX 0xF0FF 0xF00A .waitForKey ∧
  (∀ (s : State) (x : Reg), (∀ k : Nat, k < 16 → s.key.getLsbD k = false) → ∃ t : State, exec (.waitForKey x) s = .next t ∧
    t.pc.toNat = (s.pc.toNat + 65536 - 2) % 65536 ∧ Unchanged (fun p => p = .pc) s t) ∧
  (∀ (s : State) (x : Reg) (k : Nat), k < 16 → s.key.getLsbD k = true → (∀ j : Nat, j < k → s.key.getLsbD j = false) →
    ∃ t : State, exec (.waitForKey x) s = .next t ∧ (readReg t x).toNat = k ∧ Unchanged (fun p => p = .reg x) s t)

/-- R233: get-delay-timer reads the value before this step's tick, so the step that runs it ends with `DT` one
lower than what it read, when that is not 0. -/
def Obligations.GetDelayTimerReads : Prop :=
  EncodesX 0xF0FF 0xF007 .getDelayTimer ∧
  (∀ (s : State) (x : Reg), ∃ t : State, exec (.getDelayTimer x) s = .next t ∧ readReg t x = s.dt ∧
    Unchanged (fun p => p = .reg x) s t) ∧
  (∀ (s : State) (x : Reg), s.fault = none → nextInstr s = some (.getDelayTimer x) →
    ∃ t : State, step s = .next t ∧ readReg t x = s.dt ∧ t.dt.toNat = s.dt.toNat - 1)

/-- R234: set-delay-timer writes `DT`, and the step that runs it ends with the value ticked once. -/
def Obligations.SetDelayTimerWritesThenTicks : Prop :=
  EncodesX 0xF0FF 0xF015 .setDelayTimer ∧
  (∀ (s : State) (x : Reg), ∃ t : State, exec (.setDelayTimer x) s = .next t ∧ t.dt = readReg s x ∧
    Unchanged (fun p => p = .dt) s t) ∧
  (∀ (s : State) (x : Reg), s.fault = none → nextInstr s = some (.setDelayTimer x) →
    ∃ t : State, step s = .next t ∧ t.dt.toNat = (readReg s x).toNat - 1)

/-- R235: set-sound-timer writes `ST`, and the step that runs it ends with the value ticked once. -/
def Obligations.SetSoundTimerWritesThenTicks : Prop :=
  EncodesX 0xF0FF 0xF018 .setSoundTimer ∧
  (∀ (s : State) (x : Reg), ∃ t : State, exec (.setSoundTimer x) s = .next t ∧ t.st = readReg s x ∧
    Unchanged (fun p => p = .st) s t) ∧
  (∀ (s : State) (x : Reg), s.fault = none → nextInstr s = some (.setSoundTimer x) →
    ∃ t : State, step s = .next t ∧ t.st.toNat = (readReg s x).toNat - 1)
end

