-- ==== Sys2Proof/Laws/State.lean ====
section
/-! SUPPORT. What each update of the state does to each field: the updated field reads the new value, every
other reads as before. -/

namespace Sys2Proof.Machine

/-! ## setRegs -/

@[simp] theorem setRegs_x (v : Vector Byte 16) (s : State) : (setRegs v s).x = v := rfl
@[simp] theorem setRegs_index (v : Vector Byte 16) (s : State) : (setRegs v s).index = s.index := rfl
@[simp] theorem setRegs_pc (v : Vector Byte 16) (s : State) : (setRegs v s).pc = s.pc := rfl
@[simp] theorem setRegs_stack (v : Vector Byte 16) (s : State) : (setRegs v s).stack = s.stack := rfl
@[simp] theorem setRegs_sp (v : Vector Byte 16) (s : State) : (setRegs v s).sp = s.sp := rfl
@[simp] theorem setRegs_dt (v : Vector Byte 16) (s : State) : (setRegs v s).dt = s.dt := rfl
@[simp] theorem setRegs_st (v : Vector Byte 16) (s : State) : (setRegs v s).st = s.st := rfl
@[simp] theorem setRegs_key (v : Vector Byte 16) (s : State) : (setRegs v s).key = s.key := rfl
@[simp] theorem setRegs_fb (v : Vector Byte 16) (s : State) : (setRegs v s).fb = s.fb := rfl
@[simp] theorem setRegs_opcode (v : Vector Byte 16) (s : State) : (setRegs v s).opcode = s.opcode := rfl
@[simp] theorem setRegs_mem (v : Vector Byte 16) (s : State) : (setRegs v s).mem = s.mem := rfl
@[simp] theorem setRegs_fault (v : Vector Byte 16) (s : State) : (setRegs v s).fault = s.fault := rfl
@[simp] theorem setRegs_draws (v : Vector Byte 16) (s : State) : (setRegs v s).draws = s.draws := rfl

/-! ## setIndex -/

@[simp] theorem setIndex_x (v : Word) (s : State) : (setIndex v s).x = s.x := rfl
@[simp] theorem setIndex_index (v : Word) (s : State) : (setIndex v s).index = v := rfl
@[simp] theorem setIndex_pc (v : Word) (s : State) : (setIndex v s).pc = s.pc := rfl
@[simp] theorem setIndex_stack (v : Word) (s : State) : (setIndex v s).stack = s.stack := rfl
@[simp] theorem setIndex_sp (v : Word) (s : State) : (setIndex v s).sp = s.sp := rfl
@[simp] theorem setIndex_dt (v : Word) (s : State) : (setIndex v s).dt = s.dt := rfl
@[simp] theorem setIndex_st (v : Word) (s : State) : (setIndex v s).st = s.st := rfl
@[simp] theorem setIndex_key (v : Word) (s : State) : (setIndex v s).key = s.key := rfl
@[simp] theorem setIndex_fb (v : Word) (s : State) : (setIndex v s).fb = s.fb := rfl
@[simp] theorem setIndex_opcode (v : Word) (s : State) : (setIndex v s).opcode = s.opcode := rfl
@[simp] theorem setIndex_mem (v : Word) (s : State) : (setIndex v s).mem = s.mem := rfl
@[simp] theorem setIndex_fault (v : Word) (s : State) : (setIndex v s).fault = s.fault := rfl
@[simp] theorem setIndex_draws (v : Word) (s : State) : (setIndex v s).draws = s.draws := rfl

/-! ## setPc -/

@[simp] theorem setPc_x (v : Word) (s : State) : (setPc v s).x = s.x := rfl
@[simp] theorem setPc_index (v : Word) (s : State) : (setPc v s).index = s.index := rfl
@[simp] theorem setPc_pc (v : Word) (s : State) : (setPc v s).pc = v := rfl
@[simp] theorem setPc_stack (v : Word) (s : State) : (setPc v s).stack = s.stack := rfl
@[simp] theorem setPc_sp (v : Word) (s : State) : (setPc v s).sp = s.sp := rfl
@[simp] theorem setPc_dt (v : Word) (s : State) : (setPc v s).dt = s.dt := rfl
@[simp] theorem setPc_st (v : Word) (s : State) : (setPc v s).st = s.st := rfl
@[simp] theorem setPc_key (v : Word) (s : State) : (setPc v s).key = s.key := rfl
@[simp] theorem setPc_fb (v : Word) (s : State) : (setPc v s).fb = s.fb := rfl
@[simp] theorem setPc_opcode (v : Word) (s : State) : (setPc v s).opcode = s.opcode := rfl
@[simp] theorem setPc_mem (v : Word) (s : State) : (setPc v s).mem = s.mem := rfl
@[simp] theorem setPc_fault (v : Word) (s : State) : (setPc v s).fault = s.fault := rfl
@[simp] theorem setPc_draws (v : Word) (s : State) : (setPc v s).draws = s.draws := rfl

/-! ## setStack -/

@[simp] theorem setStack_x (v : Vector Word 16) (s : State) : (setStack v s).x = s.x := rfl
@[simp] theorem setStack_index (v : Vector Word 16) (s : State) : (setStack v s).index = s.index := rfl
@[simp] theorem setStack_pc (v : Vector Word 16) (s : State) : (setStack v s).pc = s.pc := rfl
@[simp] theorem setStack_stack (v : Vector Word 16) (s : State) : (setStack v s).stack = v := rfl
@[simp] theorem setStack_sp (v : Vector Word 16) (s : State) : (setStack v s).sp = s.sp := rfl
@[simp] theorem setStack_dt (v : Vector Word 16) (s : State) : (setStack v s).dt = s.dt := rfl
@[simp] theorem setStack_st (v : Vector Word 16) (s : State) : (setStack v s).st = s.st := rfl
@[simp] theorem setStack_key (v : Vector Word 16) (s : State) : (setStack v s).key = s.key := rfl
@[simp] theorem setStack_fb (v : Vector Word 16) (s : State) : (setStack v s).fb = s.fb := rfl
@[simp] theorem setStack_opcode (v : Vector Word 16) (s : State) : (setStack v s).opcode = s.opcode := rfl
@[simp] theorem setStack_mem (v : Vector Word 16) (s : State) : (setStack v s).mem = s.mem := rfl
@[simp] theorem setStack_fault (v : Vector Word 16) (s : State) : (setStack v s).fault = s.fault := rfl
@[simp] theorem setStack_draws (v : Vector Word 16) (s : State) : (setStack v s).draws = s.draws := rfl

/-! ## setSp -/

@[simp] theorem setSp_x (v : Fin 17) (s : State) : (setSp v s).x = s.x := rfl
@[simp] theorem setSp_index (v : Fin 17) (s : State) : (setSp v s).index = s.index := rfl
@[simp] theorem setSp_pc (v : Fin 17) (s : State) : (setSp v s).pc = s.pc := rfl
@[simp] theorem setSp_stack (v : Fin 17) (s : State) : (setSp v s).stack = s.stack := rfl
@[simp] theorem setSp_sp (v : Fin 17) (s : State) : (setSp v s).sp = v := rfl
@[simp] theorem setSp_dt (v : Fin 17) (s : State) : (setSp v s).dt = s.dt := rfl
@[simp] theorem setSp_st (v : Fin 17) (s : State) : (setSp v s).st = s.st := rfl
@[simp] theorem setSp_key (v : Fin 17) (s : State) : (setSp v s).key = s.key := rfl
@[simp] theorem setSp_fb (v : Fin 17) (s : State) : (setSp v s).fb = s.fb := rfl
@[simp] theorem setSp_opcode (v : Fin 17) (s : State) : (setSp v s).opcode = s.opcode := rfl
@[simp] theorem setSp_mem (v : Fin 17) (s : State) : (setSp v s).mem = s.mem := rfl
@[simp] theorem setSp_fault (v : Fin 17) (s : State) : (setSp v s).fault = s.fault := rfl
@[simp] theorem setSp_draws (v : Fin 17) (s : State) : (setSp v s).draws = s.draws := rfl

/-! ## setDt -/

@[simp] theorem setDt_x (v : Byte) (s : State) : (setDt v s).x = s.x := rfl
@[simp] theorem setDt_index (v : Byte) (s : State) : (setDt v s).index = s.index := rfl
@[simp] theorem setDt_pc (v : Byte) (s : State) : (setDt v s).pc = s.pc := rfl
@[simp] theorem setDt_stack (v : Byte) (s : State) : (setDt v s).stack = s.stack := rfl
@[simp] theorem setDt_sp (v : Byte) (s : State) : (setDt v s).sp = s.sp := rfl
@[simp] theorem setDt_dt (v : Byte) (s : State) : (setDt v s).dt = v := rfl
@[simp] theorem setDt_st (v : Byte) (s : State) : (setDt v s).st = s.st := rfl
@[simp] theorem setDt_key (v : Byte) (s : State) : (setDt v s).key = s.key := rfl
@[simp] theorem setDt_fb (v : Byte) (s : State) : (setDt v s).fb = s.fb := rfl
@[simp] theorem setDt_opcode (v : Byte) (s : State) : (setDt v s).opcode = s.opcode := rfl
@[simp] theorem setDt_mem (v : Byte) (s : State) : (setDt v s).mem = s.mem := rfl
@[simp] theorem setDt_fault (v : Byte) (s : State) : (setDt v s).fault = s.fault := rfl
@[simp] theorem setDt_draws (v : Byte) (s : State) : (setDt v s).draws = s.draws := rfl

/-! ## setSt -/

@[simp] theorem setSt_x (v : Byte) (s : State) : (setSt v s).x = s.x := rfl
@[simp] theorem setSt_index (v : Byte) (s : State) : (setSt v s).index = s.index := rfl
@[simp] theorem setSt_pc (v : Byte) (s : State) : (setSt v s).pc = s.pc := rfl
@[simp] theorem setSt_stack (v : Byte) (s : State) : (setSt v s).stack = s.stack := rfl
@[simp] theorem setSt_sp (v : Byte) (s : State) : (setSt v s).sp = s.sp := rfl
@[simp] theorem setSt_dt (v : Byte) (s : State) : (setSt v s).dt = s.dt := rfl
@[simp] theorem setSt_st (v : Byte) (s : State) : (setSt v s).st = v := rfl
@[simp] theorem setSt_key (v : Byte) (s : State) : (setSt v s).key = s.key := rfl
@[simp] theorem setSt_fb (v : Byte) (s : State) : (setSt v s).fb = s.fb := rfl
@[simp] theorem setSt_opcode (v : Byte) (s : State) : (setSt v s).opcode = s.opcode := rfl
@[simp] theorem setSt_mem (v : Byte) (s : State) : (setSt v s).mem = s.mem := rfl
@[simp] theorem setSt_fault (v : Byte) (s : State) : (setSt v s).fault = s.fault := rfl
@[simp] theorem setSt_draws (v : Byte) (s : State) : (setSt v s).draws = s.draws := rfl

/-! ## setKey -/

@[simp] theorem setKey_x (v : BitVec 16) (s : State) : (setKey v s).x = s.x := rfl
@[simp] theorem setKey_index (v : BitVec 16) (s : State) : (setKey v s).index = s.index := rfl
@[simp] theorem setKey_pc (v : BitVec 16) (s : State) : (setKey v s).pc = s.pc := rfl
@[simp] theorem setKey_stack (v : BitVec 16) (s : State) : (setKey v s).stack = s.stack := rfl
@[simp] theorem setKey_sp (v : BitVec 16) (s : State) : (setKey v s).sp = s.sp := rfl
@[simp] theorem setKey_dt (v : BitVec 16) (s : State) : (setKey v s).dt = s.dt := rfl
@[simp] theorem setKey_st (v : BitVec 16) (s : State) : (setKey v s).st = s.st := rfl
@[simp] theorem setKey_key (v : BitVec 16) (s : State) : (setKey v s).key = v := rfl
@[simp] theorem setKey_fb (v : BitVec 16) (s : State) : (setKey v s).fb = s.fb := rfl
@[simp] theorem setKey_opcode (v : BitVec 16) (s : State) : (setKey v s).opcode = s.opcode := rfl
@[simp] theorem setKey_mem (v : BitVec 16) (s : State) : (setKey v s).mem = s.mem := rfl
@[simp] theorem setKey_fault (v : BitVec 16) (s : State) : (setKey v s).fault = s.fault := rfl
@[simp] theorem setKey_draws (v : BitVec 16) (s : State) : (setKey v s).draws = s.draws := rfl

/-! ## setFb -/

@[simp] theorem setFb_x (v : BitVec 2048) (s : State) : (setFb v s).x = s.x := rfl
@[simp] theorem setFb_index (v : BitVec 2048) (s : State) : (setFb v s).index = s.index := rfl
@[simp] theorem setFb_pc (v : BitVec 2048) (s : State) : (setFb v s).pc = s.pc := rfl
@[simp] theorem setFb_stack (v : BitVec 2048) (s : State) : (setFb v s).stack = s.stack := rfl
@[simp] theorem setFb_sp (v : BitVec 2048) (s : State) : (setFb v s).sp = s.sp := rfl
@[simp] theorem setFb_dt (v : BitVec 2048) (s : State) : (setFb v s).dt = s.dt := rfl
@[simp] theorem setFb_st (v : BitVec 2048) (s : State) : (setFb v s).st = s.st := rfl
@[simp] theorem setFb_key (v : BitVec 2048) (s : State) : (setFb v s).key = s.key := rfl
@[simp] theorem setFb_fb (v : BitVec 2048) (s : State) : (setFb v s).fb = v := rfl
@[simp] theorem setFb_opcode (v : BitVec 2048) (s : State) : (setFb v s).opcode = s.opcode := rfl
@[simp] theorem setFb_mem (v : BitVec 2048) (s : State) : (setFb v s).mem = s.mem := rfl
@[simp] theorem setFb_fault (v : BitVec 2048) (s : State) : (setFb v s).fault = s.fault := rfl
@[simp] theorem setFb_draws (v : BitVec 2048) (s : State) : (setFb v s).draws = s.draws := rfl

/-! ## setOpcode -/

@[simp] theorem setOpcode_x (v : Word) (s : State) : (setOpcode v s).x = s.x := rfl
@[simp] theorem setOpcode_index (v : Word) (s : State) : (setOpcode v s).index = s.index := rfl
@[simp] theorem setOpcode_pc (v : Word) (s : State) : (setOpcode v s).pc = s.pc := rfl
@[simp] theorem setOpcode_stack (v : Word) (s : State) : (setOpcode v s).stack = s.stack := rfl
@[simp] theorem setOpcode_sp (v : Word) (s : State) : (setOpcode v s).sp = s.sp := rfl
@[simp] theorem setOpcode_dt (v : Word) (s : State) : (setOpcode v s).dt = s.dt := rfl
@[simp] theorem setOpcode_st (v : Word) (s : State) : (setOpcode v s).st = s.st := rfl
@[simp] theorem setOpcode_key (v : Word) (s : State) : (setOpcode v s).key = s.key := rfl
@[simp] theorem setOpcode_fb (v : Word) (s : State) : (setOpcode v s).fb = s.fb := rfl
@[simp] theorem setOpcode_opcode (v : Word) (s : State) : (setOpcode v s).opcode = v := rfl
@[simp] theorem setOpcode_mem (v : Word) (s : State) : (setOpcode v s).mem = s.mem := rfl
@[simp] theorem setOpcode_fault (v : Word) (s : State) : (setOpcode v s).fault = s.fault := rfl
@[simp] theorem setOpcode_draws (v : Word) (s : State) : (setOpcode v s).draws = s.draws := rfl

/-! ## setMem -/

@[simp] theorem setMem_x (v : Memory) (s : State) : (setMem v s).x = s.x := rfl
@[simp] theorem setMem_index (v : Memory) (s : State) : (setMem v s).index = s.index := rfl
@[simp] theorem setMem_pc (v : Memory) (s : State) : (setMem v s).pc = s.pc := rfl
@[simp] theorem setMem_stack (v : Memory) (s : State) : (setMem v s).stack = s.stack := rfl
@[simp] theorem setMem_sp (v : Memory) (s : State) : (setMem v s).sp = s.sp := rfl
@[simp] theorem setMem_dt (v : Memory) (s : State) : (setMem v s).dt = s.dt := rfl
@[simp] theorem setMem_st (v : Memory) (s : State) : (setMem v s).st = s.st := rfl
@[simp] theorem setMem_key (v : Memory) (s : State) : (setMem v s).key = s.key := rfl
@[simp] theorem setMem_fb (v : Memory) (s : State) : (setMem v s).fb = s.fb := rfl
@[simp] theorem setMem_opcode (v : Memory) (s : State) : (setMem v s).opcode = s.opcode := rfl
@[simp] theorem setMem_mem (v : Memory) (s : State) : (setMem v s).mem = v := rfl
@[simp] theorem setMem_fault (v : Memory) (s : State) : (setMem v s).fault = s.fault := rfl
@[simp] theorem setMem_draws (v : Memory) (s : State) : (setMem v s).draws = s.draws := rfl

/-! ## setFault -/

@[simp] theorem setFault_x (v : Option FaultRecord) (s : State) : (setFault v s).x = s.x := rfl
@[simp] theorem setFault_index (v : Option FaultRecord) (s : State) : (setFault v s).index = s.index := rfl
@[simp] theorem setFault_pc (v : Option FaultRecord) (s : State) : (setFault v s).pc = s.pc := rfl
@[simp] theorem setFault_stack (v : Option FaultRecord) (s : State) : (setFault v s).stack = s.stack := rfl
@[simp] theorem setFault_sp (v : Option FaultRecord) (s : State) : (setFault v s).sp = s.sp := rfl
@[simp] theorem setFault_dt (v : Option FaultRecord) (s : State) : (setFault v s).dt = s.dt := rfl
@[simp] theorem setFault_st (v : Option FaultRecord) (s : State) : (setFault v s).st = s.st := rfl
@[simp] theorem setFault_key (v : Option FaultRecord) (s : State) : (setFault v s).key = s.key := rfl
@[simp] theorem setFault_fb (v : Option FaultRecord) (s : State) : (setFault v s).fb = s.fb := rfl
@[simp] theorem setFault_opcode (v : Option FaultRecord) (s : State) : (setFault v s).opcode = s.opcode := rfl
@[simp] theorem setFault_mem (v : Option FaultRecord) (s : State) : (setFault v s).mem = s.mem := rfl
@[simp] theorem setFault_fault (v : Option FaultRecord) (s : State) : (setFault v s).fault = v := rfl
@[simp] theorem setFault_draws (v : Option FaultRecord) (s : State) : (setFault v s).draws = s.draws := rfl

/-! ## setDraws -/

@[simp] theorem setDraws_x (v : Nat) (s : State) : (setDraws v s).x = s.x := rfl
@[simp] theorem setDraws_index (v : Nat) (s : State) : (setDraws v s).index = s.index := rfl
@[simp] theorem setDraws_pc (v : Nat) (s : State) : (setDraws v s).pc = s.pc := rfl
@[simp] theorem setDraws_stack (v : Nat) (s : State) : (setDraws v s).stack = s.stack := rfl
@[simp] theorem setDraws_sp (v : Nat) (s : State) : (setDraws v s).sp = s.sp := rfl
@[simp] theorem setDraws_dt (v : Nat) (s : State) : (setDraws v s).dt = s.dt := rfl
@[simp] theorem setDraws_st (v : Nat) (s : State) : (setDraws v s).st = s.st := rfl
@[simp] theorem setDraws_key (v : Nat) (s : State) : (setDraws v s).key = s.key := rfl
@[simp] theorem setDraws_fb (v : Nat) (s : State) : (setDraws v s).fb = s.fb := rfl
@[simp] theorem setDraws_opcode (v : Nat) (s : State) : (setDraws v s).opcode = s.opcode := rfl
@[simp] theorem setDraws_mem (v : Nat) (s : State) : (setDraws v s).mem = s.mem := rfl
@[simp] theorem setDraws_fault (v : Nat) (s : State) : (setDraws v s).fault = s.fault := rfl
@[simp] theorem setDraws_draws (v : Nat) (s : State) : (setDraws v s).draws = v := rfl

/-! ## writeReg -/

@[simp] theorem writeReg_x (r : Reg) (v : Byte) (s : State) : (writeReg r v s).x = s.x.set r v := rfl
@[simp] theorem writeReg_index (r : Reg) (v : Byte) (s : State) : (writeReg r v s).index = s.index := rfl
@[simp] theorem writeReg_pc (r : Reg) (v : Byte) (s : State) : (writeReg r v s).pc = s.pc := rfl
@[simp] theorem writeReg_stack (r : Reg) (v : Byte) (s : State) : (writeReg r v s).stack = s.stack := rfl
@[simp] theorem writeReg_sp (r : Reg) (v : Byte) (s : State) : (writeReg r v s).sp = s.sp := rfl
@[simp] theorem writeReg_dt (r : Reg) (v : Byte) (s : State) : (writeReg r v s).dt = s.dt := rfl
@[simp] theorem writeReg_st (r : Reg) (v : Byte) (s : State) : (writeReg r v s).st = s.st := rfl
@[simp] theorem writeReg_key (r : Reg) (v : Byte) (s : State) : (writeReg r v s).key = s.key := rfl
@[simp] theorem writeReg_fb (r : Reg) (v : Byte) (s : State) : (writeReg r v s).fb = s.fb := rfl
@[simp] theorem writeReg_opcode (r : Reg) (v : Byte) (s : State) : (writeReg r v s).opcode = s.opcode := rfl
@[simp] theorem writeReg_mem (r : Reg) (v : Byte) (s : State) : (writeReg r v s).mem = s.mem := rfl
@[simp] theorem writeReg_fault (r : Reg) (v : Byte) (s : State) : (writeReg r v s).fault = s.fault := rfl
@[simp] theorem writeReg_draws (r : Reg) (v : Byte) (s : State) : (writeReg r v s).draws = s.draws := rfl

/-! ## writeFlag -/

@[simp] theorem writeFlag_index (b : Bool) (s : State) : (writeFlag b s).index = s.index := rfl
@[simp] theorem writeFlag_pc (b : Bool) (s : State) : (writeFlag b s).pc = s.pc := rfl
@[simp] theorem writeFlag_stack (b : Bool) (s : State) : (writeFlag b s).stack = s.stack := rfl
@[simp] theorem writeFlag_sp (b : Bool) (s : State) : (writeFlag b s).sp = s.sp := rfl
@[simp] theorem writeFlag_dt (b : Bool) (s : State) : (writeFlag b s).dt = s.dt := rfl
@[simp] theorem writeFlag_st (b : Bool) (s : State) : (writeFlag b s).st = s.st := rfl
@[simp] theorem writeFlag_key (b : Bool) (s : State) : (writeFlag b s).key = s.key := rfl
@[simp] theorem writeFlag_fb (b : Bool) (s : State) : (writeFlag b s).fb = s.fb := rfl
@[simp] theorem writeFlag_opcode (b : Bool) (s : State) : (writeFlag b s).opcode = s.opcode := rfl
@[simp] theorem writeFlag_mem (b : Bool) (s : State) : (writeFlag b s).mem = s.mem := rfl
@[simp] theorem writeFlag_fault (b : Bool) (s : State) : (writeFlag b s).fault = s.fault := rfl
@[simp] theorem writeFlag_draws (b : Bool) (s : State) : (writeFlag b s).draws = s.draws := rfl

/-! ## raise -/

@[simp] theorem raise_x (e : Raise) (s : State) : (raise e s).x = s.x := rfl
@[simp] theorem raise_index (e : Raise) (s : State) : (raise e s).index = s.index := rfl
@[simp] theorem raise_pc (e : Raise) (s : State) : (raise e s).pc = s.pc := rfl
@[simp] theorem raise_stack (e : Raise) (s : State) : (raise e s).stack = s.stack := rfl
@[simp] theorem raise_sp (e : Raise) (s : State) : (raise e s).sp = s.sp := rfl
@[simp] theorem raise_dt (e : Raise) (s : State) : (raise e s).dt = s.dt := rfl
@[simp] theorem raise_st (e : Raise) (s : State) : (raise e s).st = s.st := rfl
@[simp] theorem raise_key (e : Raise) (s : State) : (raise e s).key = s.key := rfl
@[simp] theorem raise_fb (e : Raise) (s : State) : (raise e s).fb = s.fb := rfl
@[simp] theorem raise_opcode (e : Raise) (s : State) : (raise e s).opcode = s.opcode := rfl
@[simp] theorem raise_mem (e : Raise) (s : State) : (raise e s).mem = s.mem := rfl
@[simp] theorem raise_fault (e : Raise) (s : State) : (raise e s).fault = some ⟨e.cause, s.pc - 2, s.opcode, e.info⟩ := rfl
@[simp] theorem raise_draws (e : Raise) (s : State) : (raise e s).draws = s.draws := rfl

end Sys2Proof.Machine
end

