-- ==== Sys2Proof/Laws/Memory.lean ====
section
/-! SUPPORT. Memory: a read after a write, at the same address and at any other; every operation keeps the
canonical form; what a run of bytes loaded or stored gives (20_memory.md R60 to R67, R75). -/

namespace Sys2Proof.Machine

/-! ## Reading after one change -/

@[simp] theorem Memory.read_nil (a : Nat) : Memory.read [] a = Memory.unlisted a := rfl

theorem Memory.read_cons (b : Nat) (v : Byte) (rest : Memory) (a : Nat) :
    Memory.read ((b, v) :: rest) a = if b = a then v else Memory.read rest a := rfl

theorem Memory.read_insert (m : Memory) (a : Nat) (v : Byte) (b : Nat) :
    (Memory.insert a v m).read b = if b = a then v else m.read b := by
  induction m with
  | nil => simp [Memory.insert, Memory.read, eq_comm]
  | cons c rest ih =>
    obtain ⟨d, u⟩ := c
    simp only [Memory.insert]
    split
    · simp [Memory.read_cons, eq_comm]
    · split
      · subst a; by_cases h : b = d <;> simp [Memory.read_cons, h, eq_comm]
      · rw [Memory.read_cons, ih, Memory.read_cons]
        by_cases h : d = b
        · have : b ≠ a := by omega
          simp [h, this]
        · simp [h]

theorem Memory.read_erase (m : Memory) (a b : Nat) :
    (Memory.erase a m).read b = if b = a then Memory.unlisted b else m.read b := by
  induction m with
  | nil => simp [Memory.erase]
  | cons c rest ih =>
    obtain ⟨d, u⟩ := c
    simp only [Memory.erase]
    split
    · rw [ih, Memory.read_cons]; by_cases h : b = a
      · simp [h]
      · have : ¬ d = b := by omega
        simp [h, this]
    · rw [Memory.read_cons, ih, Memory.read_cons]
      by_cases h : d = b
      · have : b ≠ a := by omega
        simp [h, this]
      · simp [h]

/-- A read after a write gives the byte written at its address and the old byte at every other. -/
theorem Memory.read_write (m : Memory) (a : Nat) (v : Byte) (b : Nat) :
    (m.write a v).read b = if b = a then v else m.read b := by
  unfold Memory.write
  split
  · rename_i h; subst h; rw [Memory.read_erase]; by_cases hb : b = a <;> simp [hb]
  · exact Memory.read_insert m a v b

/-! ## The canonical form is kept -/

/-- Every cell of the list lies above an address. -/
abbrev Memory.above (a : Nat) (m : Memory) : Prop := ∀ c ∈ m, a < c.1

theorem Memory.wf_cons (a : Nat) (v : Byte) (rest : Memory) :
    Memory.wf ((a, v) :: rest) = true ↔
      a < 4096 ∧ v ≠ Memory.unlisted a ∧ Memory.above a rest ∧ Memory.wf rest = true := by
  simp [Memory.wf, Memory.above, and_assoc]

theorem Memory.above_insert {b a : Nat} {v : Byte} {m : Memory} (hm : Memory.above b m) (h : b < a) :
    Memory.above b (Memory.insert a v m) := by
  induction m with
  | nil => simpa [Memory.insert, Memory.above] using h
  | cons c rest ih =>
    obtain ⟨d, u⟩ := c
    have hd : b < d := hm (d, u) (by simp)
    have hr : Memory.above b rest := fun c hc => hm c (by simp [hc])
    simp only [Memory.insert]
    split
    · simpa [Memory.above] using ⟨h, hd, fun a b hc => hr (a, b) hc⟩
    · split
      · simpa [Memory.above] using ⟨h, fun a b hc => hr (a, b) hc⟩
      · have := ih hr
        simpa [Memory.above] using ⟨hd, fun a b hc => this (a, b) hc⟩

theorem Memory.above_erase {b a : Nat} {m : Memory} (hm : Memory.above b m) :
    Memory.above b (Memory.erase a m) := by
  induction m with
  | nil => simp [Memory.erase, Memory.above]
  | cons c rest ih =>
    obtain ⟨d, u⟩ := c
    have hd : b < d := hm (d, u) (by simp)
    have hr := ih (fun c hc => hm c (by simp [hc]))
    simp only [Memory.erase]
    split
    · exact hr
    · simpa [Memory.above] using ⟨hd, fun a b hc => hr (a, b) hc⟩

theorem Memory.wf_insert {a : Nat} {v : Byte} {m : Memory} (hm : m.wf = true) (ha : a < 4096)
    (hv : v ≠ Memory.unlisted a) : (Memory.insert a v m).wf = true := by
  induction m with
  | nil => simpa [Memory.insert, Memory.wf] using ⟨ha, hv⟩
  | cons c rest ih =>
    obtain ⟨d, u⟩ := c
    obtain ⟨h1, h2, h3, h4⟩ := (Memory.wf_cons d u rest).mp hm
    simp only [Memory.insert]
    split
    · rename_i hlt
      refine (Memory.wf_cons _ _ _).mpr ⟨ha, hv, ?_, hm⟩
      intro c hc
      rcases List.mem_cons.mp hc with h | h
      · subst h; exact hlt
      · exact lt_trans hlt (h3 c h)
    · split
      · rename_i h; subst h
        exact (Memory.wf_cons _ _ _).mpr ⟨ha, hv, h3, h4⟩
      · exact (Memory.wf_cons _ _ _).mpr ⟨h1, h2, Memory.above_insert h3 (by omega), ih h4⟩

theorem Memory.wf_erase {a : Nat} {m : Memory} (hm : m.wf = true) : (Memory.erase a m).wf = true := by
  induction m with
  | nil => rfl
  | cons c rest ih =>
    obtain ⟨d, u⟩ := c
    obtain ⟨h1, h2, h3, h4⟩ := (Memory.wf_cons d u rest).mp hm
    simp only [Memory.erase]
    split
    · exact ih h4
    · exact (Memory.wf_cons _ _ _).mpr ⟨h1, h2, Memory.above_erase h3, ih h4⟩

/-- A write of a valid address keeps the canonical form. -/
theorem Memory.wf_write {m : Memory} {a : Nat} {v : Byte} (hm : m.wf = true) (ha : a < 4096) :
    (m.write a v).wf = true := by
  unfold Memory.write
  split
  · exact Memory.wf_erase hm
  · exact Memory.wf_insert hm ha ‹_›

/-! ## The checked accesses (R67) -/

theorem memRead_ok {m : Memory} {a : Nat} (h : a ≤ 0xFFF) : memRead m a = .ok (m.read a) := by
  have : a < Config.memSize := by simp only [Config.memSize]; omega
  simp [memRead, this]

theorem memRead_error {m : Memory} {a : Nat} (h : 0xFFF < a) : memRead m a = .error ⟨.dataOutOfRange, a⟩ := by
  have : ¬ a < Config.memSize := by simp only [Config.memSize]; omega
  simp [memRead, this]

theorem memWrite_ok {m : Memory} {a : Nat} {v : Byte} (h : a ≤ 0xFFF) : memWrite m a v = .ok (m.write a v) := by
  have : a < Config.memSize := by simp only [Config.memSize]; omega
  simp [memWrite, this]

theorem memWrite_error {m : Memory} {a : Nat} {v : Byte} (h : 0xFFF < a) :
    memWrite m a v = .error ⟨.dataOutOfRange, a⟩ := by
  have : ¬ a < Config.memSize := by simp only [Config.memSize]; omega
  simp [memWrite, this]

/-! ## Runs of bytes -/

/-- Bytes all in range load, and the `k`-th is the byte at the `k`-th address. -/
theorem loadBytes_ok (m : Memory) (a count : Nat) (h : ∀ k < count, a + k ≤ 0xFFF) :
    loadBytes m a count = .ok ((List.range count).map (fun k => m.read (a + k))) := by
  induction count generalizing a with
  | zero => rfl
  | succ n ih =>
    have h0 : a ≤ 0xFFF := by simpa using h 0 (by omega)
    have hn : ∀ k < n, a + 1 + k ≤ 0xFFF := fun k hk => by have := h (k + 1) (by omega); omega
    simp only [loadBytes, memRead_ok h0, ih (a + 1) hn, List.range_succ_eq_map, List.map_cons, List.map_map]
    congr 2
    refine List.map_congr_left fun k _ => ?_
    simp only [Function.comp_apply, Nat.succ_eq_add_one]
    congr 1
    omega

/-- A load whose first bad address is the `k`-th raises DataOutOfRange there. -/
theorem loadBytes_error (m : Memory) (a count k : Nat) (hk : k < count) (hbad : 0xFFF < a + k)
    (hgood : ∀ j < k, a + j ≤ 0xFFF) : loadBytes m a count = .error ⟨.dataOutOfRange, a + k⟩ := by
  induction k generalizing a count with
  | zero =>
    obtain ⟨n, rfl⟩ : ∃ n, count = n + 1 := ⟨count - 1, by omega⟩
    simp [loadBytes, memRead_error (m := m) (show 0xFFF < a by omega)]
  | succ k ih =>
    obtain ⟨n, rfl⟩ : ∃ n, count = n + 1 := ⟨count - 1, by omega⟩
    have h0 : a ≤ 0xFFF := by simpa using hgood 0 (by omega)
    have := ih (a + 1) n (by omega) (by omega) (fun j hj => by have := hgood (j + 1) (by omega); omega)
    simp only [loadBytes, memRead_ok h0, this]
    congr 2
    omega

/-- Bytes all in range are stored: the `k`-th reads back at the `k`-th address, every other address reads as
before, and the canonical form is kept. -/
theorem storeBytes_ok (m : Memory) (a : Nat) (bs : List Byte) (h : ∀ k < bs.length, a + k ≤ 0xFFF) :
    ∃ m', storeBytes m a bs = .ok m' ∧
      (∀ (k : Nat) (hk : k < bs.length), m'.read (a + k) = bs[k]) ∧
      (∀ b, (∀ k < bs.length, b ≠ a + k) → m'.read b = m.read b) ∧
      (m.wf = true → m'.wf = true) := by
  induction bs generalizing m a with
  | nil => exact ⟨m, rfl, by simp, by simp, id⟩
  | cons v vs ih =>
    have h0 : a ≤ 0xFFF := by simpa using h 0 (by simp)
    obtain ⟨m', hm, hin, hout, hwf⟩ := ih (m.write a v) (a + 1)
      (fun k hk => by have := h (k + 1) (by simpa using hk); omega)
    refine ⟨m', by simp [storeBytes, memWrite_ok h0, hm], ?_, ?_, ?_⟩
    · intro k hk
      cases k with
      | zero =>
        rw [Nat.add_zero, hout a (fun k _ => by omega), Memory.read_write]
        simp
      | succ k =>
        have := hin k (by simpa using hk)
        rw [show a + (k + 1) = a + 1 + k by omega, this]
        simp
    · intro b hb
      rw [hout b (fun k hk => by have := hb (k + 1) (by simpa using hk); omega), Memory.read_write]
      have : b ≠ a := by simpa using hb 0 (by simp)
      simp [this]
    · exact fun hw => hwf (Memory.wf_write hw (by omega))

/-- A store whose first bad address is the `k`-th raises DataOutOfRange there. -/
theorem storeBytes_error (m : Memory) (a : Nat) (bs : List Byte) (k : Nat) (hk : k < bs.length)
    (hbad : 0xFFF < a + k) (hgood : ∀ j < k, a + j ≤ 0xFFF) :
    storeBytes m a bs = .error ⟨.dataOutOfRange, a + k⟩ := by
  induction k generalizing m a bs with
  | zero =>
    cases bs with
    | nil => simp at hk
    | cons v vs => simp [storeBytes, memWrite_error (m := m) (v := v) (show 0xFFF < a by omega)]
  | succ k ih =>
    cases bs with
    | nil => simp at hk
    | cons v vs =>
      have h0 : a ≤ 0xFFF := by simpa using hgood 0 (by omega)
      have := ih (m.write a v) (a + 1) vs (by simpa using hk) (by omega)
        (fun j hj => by have := hgood (j + 1) (by omega); omega)
      simp only [storeBytes, memWrite_ok h0, this]
      congr 2
      omega

/-- What a store can answer, whichever it is. -/
theorem storeBytes_cases (m : Memory) (a : Nat) (bs : List Byte) :
    (∃ m', storeBytes m a bs = .ok m' ∧ (∀ b, (∀ k < bs.length, b ≠ a + k) → m'.read b = m.read b) ∧
      (m.wf = true → m'.wf = true)) ∨
    (∃ k < bs.length, 0xFFF < a + k ∧ storeBytes m a bs = .error ⟨.dataOutOfRange, a + k⟩) := by
  by_cases h : ∀ k < bs.length, a + k ≤ 0xFFF
  · obtain ⟨m', h1, _, h3, h4⟩ := storeBytes_ok m a bs h
    exact .inl ⟨m', h1, h3, h4⟩
  · have hex : ∃ k, k < bs.length ∧ 0xFFF < a + k := by
      by_contra hc
      exact h fun k hk => not_lt.mp fun hlt => hc ⟨k, hk, hlt⟩
    classical
    obtain ⟨hk, hbad⟩ := Nat.find_spec hex
    refine .inr ⟨Nat.find hex, hk, hbad, storeBytes_error m a bs _ hk hbad fun j hj => ?_⟩
    have := Nat.find_min hex hj
    by_contra hc
    exact this ⟨by omega, by omega⟩

/-- What a load can answer, whichever it is. -/
theorem loadBytes_cases (m : Memory) (a count : Nat) :
    loadBytes m a count = .ok ((List.range count).map (fun k => m.read (a + k))) ∨
    (∃ k < count, 0xFFF < a + k ∧ loadBytes m a count = .error ⟨.dataOutOfRange, a + k⟩) := by
  by_cases h : ∀ k < count, a + k ≤ 0xFFF
  · exact .inl (loadBytes_ok m a count h)
  · have hex : ∃ k, k < count ∧ 0xFFF < a + k := by
      by_contra hc
      exact h fun k hk => not_lt.mp fun hlt => hc ⟨k, hk, hlt⟩
    classical
    obtain ⟨hk, hbad⟩ := Nat.find_spec hex
    refine .inr ⟨Nat.find hex, hk, hbad, loadBytes_error m a count _ hk hbad fun j hj => ?_⟩
    have := Nat.find_min hex hj
    by_contra hc
    exact this ⟨by omega, by omega⟩

end Sys2Proof.Machine
end

