-- ==== Sys2Proof/Laws/Boundary.lean ====
section
/-! SUPPORT. What the host's image load does to memory (R70, R71): the bytes it leaves, and that it keeps the
canonical form; equal reads make equal canonical memories. -/

namespace Sys2Proof.Machine

/-- A copied image is read back byte by byte, and every other address reads as before (R70). -/
theorem copyImage_read (bs : List Byte) (m : Memory) (a : Nat) :
    (∀ (k : Nat) (h : k < bs.length), (copyImage m a bs).read (a + k) = bs[k]) ∧
    ∀ b : Nat, (∀ k : Nat, k < bs.length → b ≠ a + k) → (copyImage m a bs).read b = m.read b := by
  induction bs generalizing m a with
  | nil => exact ⟨fun k h => absurd h (by simp), fun b _ => rfl⟩
  | cons v vs ih =>
    obtain ⟨inside, outside⟩ := ih (m.write a v) (a + 1)
    refine ⟨fun k hk => ?_, fun b hb => ?_⟩
    · cases k with
      | zero => simp [copyImage, outside a (fun k _ => by omega), Memory.read_write]
      | succ k =>
        have := inside k (by simpa using hk)
        rw [copyImage, show a + (k + 1) = a + 1 + k by omega, this]
        rfl
    · have := outside b (fun k hk => by have := hb (k + 1) (by simpa using hk); omega)
      rw [copyImage, this, Memory.read_write, if_neg (by simpa using hb 0 (by simp))]

/-- An image that ends inside memory keeps the canonical form. -/
theorem copyImage_wf {bs : List Byte} {m : Memory} {a : Nat} (hm : m.wf = true) (h : a + bs.length ≤ 4096) :
    (copyImage m a bs).wf = true := by
  induction bs generalizing m a with
  | nil => exact hm
  | cons v vs ih =>
    simp only [List.length_cons] at h
    exact ih (Memory.wf_write hm (by omega)) (by omega)

/-- Every load, failed ones included, keeps the canonical form. -/
theorem loadImage_wf {image : Option (List Byte)} {s : State} (hs : s.mem.wf = true) :
    (loadImage image s).1.mem.wf = true := by
  unfold loadImage
  split
  · exact hs
  · split
    · rename_i bs h
      simp only [imageLengthOk, Config.imageMax, decide_eq_true_eq] at h
      exact copyImage_wf hs (by simp only [Config.progBase]; omega)
    · split <;> exact hs

/-- Canonical memories that read alike are the same data. -/
theorem Memory.eq_of_read {m m' : Memory} (hm : m.wf = true) (hm' : m'.wf = true)
    (h : ∀ a : Nat, m.read a = m'.read a) : m = m' := by
  have low : ∀ (l : Memory) (a : Nat), Memory.above a l → ∀ b : Nat, b ≤ a → l.read b = Memory.unlisted b := by
    intro l
    induction l with
    | nil => intro a _ b _; rfl
    | cons c rest ih =>
      intro a ha b hb
      have : a < c.1 := ha c (by simp)
      obtain ⟨d, u⟩ := c
      rw [Memory.read_cons, if_neg (by omega)]
      exact ih a (fun c hc => ha c (by simp [hc])) b hb
  induction m generalizing m' with
  | nil =>
    cases m' with
    | nil => rfl
    | cons c rest =>
      obtain ⟨d, u⟩ := c
      have hne := ((Memory.wf_cons d u rest).mp hm').2.1
      exact absurd (h d).symm (by simpa [Memory.read_cons] using hne)
  | cons c rest ih =>
    obtain ⟨a, v⟩ := c
    obtain ⟨-, hv, habove, hrest⟩ := (Memory.wf_cons a v rest).mp hm
    cases m' with
    | nil => exact absurd (h a) (by simpa [Memory.read_cons] using hv)
    | cons c' rest' =>
      obtain ⟨a', v'⟩ := c'
      obtain ⟨-, hv', habove', hrest'⟩ := (Memory.wf_cons a' v' rest').mp hm'
      have haa : a = a' := by
        rcases lt_trichotomy a a' with hlt | heq | hlt
        · have := h a
          rw [Memory.read_cons, if_pos rfl, Memory.read_cons, if_neg (by omega), low rest' a' habove' a (by omega)] at this
          exact absurd this hv
        · exact heq
        · have := h a'
          rw [Memory.read_cons, if_neg (by omega), Memory.read_cons, if_pos rfl, low rest a habove a' (by omega)] at this
          exact absurd this.symm hv'
      subst haa
      have hvv : v = v' := by simpa [Memory.read_cons] using h a
      subst hvv
      congr 1
      refine ih hrest hrest' (fun b => ?_)
      by_cases hb : b ≤ a
      · rw [low rest a habove b hb, low rest' a habove' b hb]
      · simpa [Memory.read_cons, show ¬ a = b by omega] using h b

end Sys2Proof.Machine
end

