-- ==== Sys2Proof/Laws/Decode.lean ====
section
/-! SUPPORT. The fields of a word as numbers, and the fields of an encoded word (R91, R92). -/

namespace Sys2Proof.Machine

theorem fieldF_toNat (w : Word) : (fieldF w).toNat = bitsOf w 15 12 := by
  simp [fieldF, bitsOf, BitVec.extractLsb'_toNat, Nat.shiftRight_eq_div_pow]

theorem fieldX_val (w : Word) : (fieldX w).val = bitsOf w 11 8 := by
  simp [fieldX, bitsOf, Nat.shiftRight_eq_div_pow]

theorem fieldY_val (w : Word) : (fieldY w).val = bitsOf w 7 4 := by
  simp [fieldY, bitsOf, Nat.shiftRight_eq_div_pow]

theorem fieldN_toNat (w : Word) : (fieldN w).toNat = bitsOf w 3 0 := by
  simp [fieldN, bitsOf, BitVec.extractLsb'_toNat]

theorem fieldNN_toNat (w : Word) : (fieldNN w).toNat = bitsOf w 7 0 := by
  simp [fieldNN, bitsOf, BitVec.extractLsb'_toNat]

theorem fieldNNN_toNat (w : Word) : (fieldNNN w).toNat = bitsOf w 11 0 := by
  simp [fieldNNN, bitsOf, BitVec.extractLsb'_toNat]

/-! ## Encoded words as numbers -/

theorem regBits_toNat (r : Reg) : (regBits r).toNat = r.val := rfl

theorem append_toNat {n m : Nat} (a : BitVec n) (b : BitVec m) : (a ++ b).toNat = a.toNat * 2 ^ m + b.toNat := by
  rw [BitVec.toNat_append, ← Nat.shiftLeft_add_eq_or_of_lt b.isLt, Nat.shiftLeft_eq]

theorem wordA_toNat (f : BitVec 4) (nnn : Addr12) : (wordA f nnn).toNat = f.toNat * 4096 + nnn.toNat :=
  append_toNat f nnn

theorem wordX_toNat (f : BitVec 4) (x : Reg) (nn : Byte) : (wordX f x nn).toNat = f.toNat * 4096 + x.val * 256 + nn.toNat := by
  have h1 := append_toNat f (regBits x)
  have h2 := append_toNat (f ++ regBits x) nn
  rw [h1, regBits_toNat] at h2
  exact h2.trans (by omega)

theorem wordXY_toNat (f : BitVec 4) (x y : Reg) (n : Nibble) :
    (wordXY f x y n).toNat = f.toNat * 4096 + x.val * 256 + y.val * 16 + n.toNat := by
  have h1 := append_toNat f (regBits x)
  have h2 := append_toNat (f ++ regBits x) (regBits y)
  have h3 := append_toNat (f ++ regBits x ++ regBits y) n
  rw [h2, h1, regBits_toNat, regBits_toNat] at h3
  exact h3.trans (by omega)

/-! ## Masks as fields -/

/-- The mask 0xF000 selects the family. -/
theorem and_F000 (w : Word) : (w &&& 0xF000#16).toNat = bitsOf w 15 12 * 4096 := by
  have : (w &&& 0xF000#16) = (w >>> 12) <<< 12 := by
    ext i
    have : i = 0 ∨ i = 1 ∨ i = 2 ∨ i = 3 ∨ i = 4 ∨ i = 5 ∨ i = 6 ∨ i = 7 ∨ i = 8 ∨ i = 9 ∨ i = 10 ∨ i = 11 ∨ i = 12 ∨
      i = 13 ∨ i = 14 ∨ i = 15 := by omega
    rcases this with rfl | rfl | rfl | rfl | rfl | rfl | rfl | rfl | rfl | rfl | rfl | rfl | rfl | rfl | rfl | rfl <;> simp
  have hw := w.isLt
  rw [this]
  simp only [BitVec.toNat_shiftLeft, BitVec.toNat_ushiftRight, Nat.shiftRight_eq_div_pow, Nat.shiftLeft_eq, bitsOf]
  omega

/-- The mask 0xF0FF selects the family and the low byte. -/
theorem and_F0FF (w : Word) : (w &&& 0xF0FF#16).toNat = bitsOf w 15 12 * 4096 + bitsOf w 7 0 := by
  have : (w &&& 0xF0FF#16) = (w >>> 12) <<< 12 ||| (w &&& 0x00FF#16) := by
    ext i
    have : i = 0 ∨ i = 1 ∨ i = 2 ∨ i = 3 ∨ i = 4 ∨ i = 5 ∨ i = 6 ∨ i = 7 ∨ i = 8 ∨ i = 9 ∨ i = 10 ∨ i = 11 ∨ i = 12 ∨
      i = 13 ∨ i = 14 ∨ i = 15 := by omega
    rcases this with rfl | rfl | rfl | rfl | rfl | rfl | rfl | rfl | rfl | rfl | rfl | rfl | rfl | rfl | rfl | rfl <;> simp
  have hw := w.isLt
  have h1 : (w &&& 0x00FF#16).toNat = w.toNat % 256 := by
    rw [BitVec.toNat_and]; exact Nat.and_two_pow_sub_one_eq_mod w.toNat 8
  have h2 : ((w >>> 12) <<< 12).toNat = w.toNat / 4096 * 4096 := by
    simp only [BitVec.toNat_shiftLeft, BitVec.toNat_ushiftRight, Nat.shiftRight_eq_div_pow, Nat.shiftLeft_eq]
    omega
  rw [this, BitVec.toNat_or, h1, h2]
  rw [show w.toNat / 4096 * 4096 = (w.toNat / 4096 * 16) <<< 8 by rw [Nat.shiftLeft_eq]; omega,
    ← Nat.shiftLeft_add_eq_or_of_lt (by omega), Nat.shiftLeft_eq]
  simp only [bitsOf]
  omega

/-- The mask 0xF00F selects the family and the low nibble. -/
theorem and_F00F (w : Word) : (w &&& 0xF00F#16).toNat = bitsOf w 15 12 * 4096 + bitsOf w 3 0 := by
  have : (w &&& 0xF00F#16) = (w >>> 12) <<< 12 ||| (w &&& 0x000F#16) := by
    ext i
    have : i = 0 ∨ i = 1 ∨ i = 2 ∨ i = 3 ∨ i = 4 ∨ i = 5 ∨ i = 6 ∨ i = 7 ∨ i = 8 ∨ i = 9 ∨ i = 10 ∨ i = 11 ∨ i = 12 ∨
      i = 13 ∨ i = 14 ∨ i = 15 := by omega
    rcases this with rfl | rfl | rfl | rfl | rfl | rfl | rfl | rfl | rfl | rfl | rfl | rfl | rfl | rfl | rfl | rfl <;> simp
  have hw := w.isLt
  have h1 : (w &&& 0x000F#16).toNat = w.toNat % 16 := by
    rw [BitVec.toNat_and]; exact Nat.and_two_pow_sub_one_eq_mod w.toNat 4
  have h2 : ((w >>> 12) <<< 12).toNat = w.toNat / 4096 * 4096 := by
    simp only [BitVec.toNat_shiftLeft, BitVec.toNat_ushiftRight, Nat.shiftRight_eq_div_pow, Nat.shiftLeft_eq]
    omega
  rw [this, BitVec.toNat_or, h1, h2]
  rw [show w.toNat / 4096 * 4096 = (w.toNat / 4096 * 256) <<< 4 by rw [Nat.shiftLeft_eq]; omega,
    ← Nat.shiftLeft_add_eq_or_of_lt (by omega), Nat.shiftLeft_eq]
  simp only [bitsOf]
  omega

/-! ## A field from its number, and from a mask and pattern -/

theorem fieldF_of {w : Word} {k : BitVec 4} (h : bitsOf w 15 12 = k.toNat) : fieldF w = k :=
  BitVec.eq_of_toNat_eq (by rw [fieldF_toNat, h])

theorem fieldNN_of {w : Word} {k : Byte} (h : k.toNat = bitsOf w 7 0) : fieldNN w = k :=
  BitVec.eq_of_toNat_eq (by rw [fieldNN_toNat, h])

theorem fieldN_of {w : Word} {k : Nibble} (h : k.toNat = bitsOf w 3 0) : fieldN w = k :=
  BitVec.eq_of_toNat_eq (by rw [fieldN_toNat, h])

theorem fieldNNN_of {w : Word} {k : Addr12} (h : k.toNat = bitsOf w 11 0) : fieldNNN w = k :=
  BitVec.eq_of_toNat_eq (by rw [fieldNNN_toNat, h])

theorem fieldX_of {w : Word} {k : Reg} (h : k.val = bitsOf w 11 8) : fieldX w = k := Fin.ext (by rw [fieldX_val, h])

theorem fieldY_of {w : Word} {k : Reg} (h : k.val = bitsOf w 7 4) : fieldY w = k := Fin.ext (by rw [fieldY_val, h])

/-- A match under the mask 0xF000 fixes the family. -/
theorem family_of_match {w p : Word} (h : w &&& 0xF000#16 = p) (f : BitVec 4) (hp : p.toNat = f.toNat * 4096) :
    fieldF w = f := by
  have := and_F000 w
  rw [h] at this
  exact fieldF_of (by omega)

/-- A match under the mask 0xF0FF fixes the family and the low byte. -/
theorem family_and_byte_of_match {w p : Word} (h : w &&& 0xF0FF#16 = p) (f : BitVec 4) (nn : Byte)
    (hp : p.toNat = f.toNat * 4096 + nn.toNat) : fieldF w = f ∧ fieldNN w = nn := by
  have hw := and_F0FF w
  have hlow : bitsOf w 7 0 < 256 := by simp only [bitsOf]; omega
  have hnn := nn.isLt
  rw [h] at hw
  exact ⟨fieldF_of (by omega), fieldNN_of (by omega)⟩

/-- A match under the mask 0xF00F fixes the family and the low nibble. -/
theorem family_and_nibble_of_match {w p : Word} (h : w &&& 0xF00F#16 = p) (f : BitVec 4) (n : Nibble)
    (hp : p.toNat = f.toNat * 4096 + n.toNat) : fieldF w = f ∧ fieldN w = n := by
  have hw := and_F00F w
  have hlow : bitsOf w 3 0 < 16 := by simp only [bitsOf]; omega
  have hn := n.isLt
  rw [h] at hw
  exact ⟨fieldF_of (by omega), fieldN_of (by omega)⟩

end Sys2Proof.Machine
end

