-- ==== Sys2Proof/Laws/Ops.lean ====
section
/-! SUPPORT. What each shared operation over registers, stack, keypad, display and the fault latch can do,
said once. -/

namespace Sys2Proof.Machine

/-! ## Registers (R20, R21) -/

theorem readReg_eq (s : State) (r : Reg) : readReg s r = s.x[r.val] := rfl

/-- A register reads what was last written to it. -/
@[simp] theorem readReg_writeReg (r q : Reg) (v : Byte) (s : State) :
    readReg (writeReg r v s) q = if q = r then v else readReg s q := by
  simp only [readReg_eq, writeReg_x]
  by_cases h : q = r
  · subst h; simp
  · have : r.val ≠ q.val := fun e => h (Fin.ext e.symm)
    simp [h, this]

/-- The flag write is a write of 1 or 0 to register 15. -/
@[simp] theorem readReg_writeFlag (b : Bool) (q : Reg) (s : State) :
    readReg (writeFlag b s) q = if q = 15 then (if b then 1 else 0) else readReg s q := by
  simp [writeFlag]

@[simp] theorem readReg_setPc (v : Word) (s : State) (q : Reg) : readReg (setPc v s) q = readReg s q := rfl
@[simp] theorem readReg_setIndex (v : Word) (s : State) (q : Reg) : readReg (setIndex v s) q = readReg s q := rfl
@[simp] theorem readReg_setDt (v : Byte) (s : State) (q : Reg) : readReg (setDt v s) q = readReg s q := rfl
@[simp] theorem readReg_setSt (v : Byte) (s : State) (q : Reg) : readReg (setSt v s) q = readReg s q := rfl
@[simp] theorem readReg_setFb (v : BitVec 2048) (s : State) (q : Reg) : readReg (setFb v s) q = readReg s q := rfl
@[simp] theorem readReg_setMem (v : Memory) (s : State) (q : Reg) : readReg (setMem v s) q = readReg s q := rfl
@[simp] theorem readReg_setOpcode (v : Word) (s : State) (q : Reg) : readReg (setOpcode v s) q = readReg s q := rfl
@[simp] theorem readReg_setFault (v : Option FaultRecord) (s : State) (q : Reg) : readReg (setFault v s) q = readReg s q := rfl
@[simp] theorem readReg_setStack (v : Vector Word 16) (s : State) (q : Reg) : readReg (setStack v s) q = readReg s q := rfl
@[simp] theorem readReg_setSp (v : Fin 17) (s : State) (q : Reg) : readReg (setSp v s) q = readReg s q := rfl
@[simp] theorem readReg_setKey (v : BitVec 16) (s : State) (q : Reg) : readReg (setKey v s) q = readReg s q := rfl
@[simp] theorem readReg_setDraws (v : Nat) (s : State) (q : Reg) : readReg (setDraws v s) q = readReg s q := rfl
@[simp] theorem readReg_raise (e : Raise) (s : State) (q : Reg) : readReg (raise e s) q = readReg s q := rfl

/-- The `j`-th byte that store-registers collects is register `k + j` (R194). -/
theorem readRegsFrom_eq (s : State) (k count : Nat) (h : k + count ≤ 16) :
    (readRegsFrom s k count).length = count ∧
    ∀ (j : Nat) (hj : j < (readRegsFrom s k count).length) (hk : k + j < 16),
      (readRegsFrom s k count)[j] = readReg s ⟨k + j, hk⟩ := by
  induction count generalizing k with
  | zero => exact ⟨rfl, fun j hj => absurd hj (by simp [readRegsFrom])⟩
  | succ n ih =>
    obtain ⟨hl, hv⟩ := ih (k + 1) (by omega)
    refine ⟨by simp [readRegsFrom, hl], fun j hj hk => ?_⟩
    cases j with
    | zero =>
      have : k < 16 := by omega
      simp [readRegsFrom, this]
    | succ j =>
      have := hv j (by simpa [readRegsFrom] using hj) (by omega)
      simp only [readRegsFrom, List.getElem_cons_succ, this]
      congr 2
      omega

/-- load-registers writes byte `j` to register `k + j` and no other register, and no other field (R195). -/
theorem writeRegsFrom_reg (bs : List Byte) (k : Nat) (s : State) (q : Reg) :
    readReg (writeRegsFrom k bs s) q =
      if h : k ≤ q.val ∧ q.val - k < bs.length then bs[q.val - k]'h.2 else readReg s q := by
  induction bs generalizing k s with
  | nil => simp [writeRegsFrom]
  | cons b bs ih =>
    rw [writeRegsFrom, ih]
    by_cases h1 : k + 1 ≤ q.val ∧ q.val - (k + 1) < bs.length
    · have h2 : k ≤ q.val ∧ q.val - k < (b :: bs).length := ⟨by omega, by simp only [List.length_cons]; omega⟩
      rw [dif_pos h1, dif_pos h2, List.getElem_cons, dif_neg (by omega)]
      congr 1
    · rw [dif_neg h1]
      by_cases h2 : k ≤ q.val ∧ q.val - k < (b :: bs).length
      · have hq : q.val = k := by simp only [List.length_cons] at h2; omega
        rw [dif_pos h2]
        have hk : k < 16 := hq ▸ q.isLt
        have hqk : q = ⟨k, hk⟩ := Fin.ext hq
        simp [hk, hqk]
      · rw [dif_neg h2]
        by_cases hk : k < 16
        · have : q ≠ ⟨k, hk⟩ := fun e => h2 ⟨by simp [e], by simp [e]⟩
          simp [hk, this]
        · simp [hk]

/-- Writing registers touches no other field. -/
theorem writeRegsFrom_frame (bs : List Byte) (k : Nat) (s : State) :
    ∃ v, writeRegsFrom k bs s = setRegs v s := by
  induction bs generalizing k s with
  | nil => exact ⟨s.x, rfl⟩
  | cons b bs ih =>
    rw [writeRegsFrom]
    split
    · obtain ⟨v, hv⟩ := ih (k + 1) (writeReg ⟨k, ‹_›⟩ b s)
      exact ⟨v, by rw [hv]; rfl⟩
    · exact ih (k + 1) s

/-! ## Call stack (R24, R25, R140, R142) -/

/-- What a push can answer. -/
theorem push_cases (v : Word) (s : State) :
    (∃ h : s.sp.val < 16, push v s = .ok (setSp ⟨s.sp.val + 1, by omega⟩ (setStack (s.stack.set s.sp.val v) s))) ∨
    (s.sp.val = 16 ∧ push v s = .error ⟨.stackOverflow, 16⟩) := by
  by_cases h : s.sp.val < 16
  · exact .inl ⟨h, by simp [push, h]⟩
  · exact .inr ⟨by have := s.sp.isLt; omega, by simp [push, h]⟩

/-- What a pop can answer. -/
theorem pop_cases (s : State) :
    (∃ h : 0 < s.sp.val, pop s = .ok (stackAt s ⟨s.sp.val - 1, by omega⟩, setSp ⟨s.sp.val - 1, by omega⟩ s)) ∨
    (s.sp.val = 0 ∧ pop s = .error ⟨.stackUnderflow, 0⟩) := by
  by_cases h : 0 < s.sp.val
  · exact .inl ⟨h, by simp [pop, h]⟩
  · exact .inr ⟨by omega, by simp [pop, h]⟩

/-! ## Keypad (R232, R236) -/

/-- The scan finds the lowest key down from `k` on, or none when all are up. -/
theorem lowestKeyFrom_cases (keys : BitVec 16) (k count : Nat) :
    (lowestKeyFrom keys k count = none ∧ ∀ j, k ≤ j → j < k + count → keyDown keys j = false) ∨
    (∃ j, k ≤ j ∧ j < k + count ∧ lowestKeyFrom keys k count = some j ∧ keyDown keys j = true ∧
      ∀ i, k ≤ i → i < j → keyDown keys i = false) := by
  induction count generalizing k with
  | zero => exact .inl ⟨rfl, fun j h1 h2 => by omega⟩
  | succ n ih =>
    by_cases h : keyDown keys k = true
    · exact .inr ⟨k, le_refl _, by omega, by simp [lowestKeyFrom, h], h, fun i h1 h2 => by omega⟩
    · have hf : keyDown keys k = false := by simpa using h
      rcases ih (k + 1) with ⟨h1, h2⟩ | ⟨j, h1, h2, h3, h4, h5⟩
      · refine .inl ⟨by simp [lowestKeyFrom, h, h1], fun j hj1 hj2 => ?_⟩
        by_cases hjk : j = k
        · rw [hjk]; exact hf
        · exact h2 j (by omega) (by omega)
      · refine .inr ⟨j, by omega, by omega, by simp [lowestKeyFrom, h, h3], h4, fun i hi1 hi2 => ?_⟩
        by_cases hik : i = k
        · rw [hik]; exact hf
        · exact h5 i (by omega) hi2

theorem keyIndex_cases (v : Byte) :
    (v.toNat ≤ 15 ∧ keyIndex v = .ok v.toNat) ∨ (15 < v.toNat ∧ keyIndex v = .error ⟨.keyIndexInvalid, v.toNat⟩) := by
  by_cases h : v.toNat ≤ 15
  · exact .inl ⟨h, by simp [keyIndex, h]⟩
  · exact .inr ⟨by omega, by simp [keyIndex, h]⟩

theorem glyphAddress_cases (v : Byte) :
    (v.toNat ≤ 15 ∧ glyphAddress v = .ok (BitVec.ofNat 16 (0x050 + 5 * v.toNat))) ∨
    (15 < v.toNat ∧ glyphAddress v = .error ⟨.fontIndexInvalid, v.toNat⟩) := by
  by_cases h : v.toNat ≤ 15
  · exact .inl ⟨h, by simp [glyphAddress, h, Config.fontBase]⟩
  · exact .inr ⟨by omega, by simp [glyphAddress, h]⟩

/-! ## Display (R211 to R214) -/

theorem pixel_toggle (fb : BitVec 2048) (i k : Nat) :
    pixel (togglePixel fb i) k = (pixel fb k ^^ (decide (k < 2048) && decide (i = k))) := by
  simp only [pixel, togglePixel, BitVec.getLsbD_xor, BitVec.getLsbD_twoPow]
  by_cases h1 : i = k
  · subst h1; simp
  · simp [h1]

/-- A pixel index at or above 2048 is no pixel. -/
theorem pixel_beyond (fb : BitVec 2048) (k : Nat) (h : 2048 ≤ k) : pixel fb k = false :=
  BitVec.getLsbD_of_ge _ _ h

/-- What plotting one pixel can answer. -/
theorem plot_cases (k : Nat) (c : Canvas) :
    (k ≤ 2047 ∧ plot k c = .ok { fb := togglePixel c.fb k, hit := c.hit || pixel c.fb k }) ∨
    (2047 < k ∧ plot k c = .error ⟨.displayOutOfRange, k⟩) := by
  by_cases h : k < Config.displaySize
  · refine .inl ⟨?_, by simp [plot, h]⟩
    simp only [Config.displaySize] at h; omega
  · refine .inr ⟨?_, by simp [plot, h]⟩
    simp only [Config.displaySize] at h; omega

/-- `c'` is `c` after the pixels of a set `S` were flipped, each once: a pixel in `S` is flipped, another is
as before, and the collision is the old one or a pixel of `S` that was on (R213). -/
structure Canvas.Flips (S : Nat → Prop) (c c' : Canvas) : Prop where
  flipped : ∀ k, S k → pixel c'.fb k = !pixel c.fb k
  kept    : ∀ k, ¬ S k → pixel c'.fb k = pixel c.fb k
  hit     : c'.hit = true ↔ c.hit = true ∨ ∃ k, S k ∧ pixel c.fb k = true

theorem Canvas.Flips.none (c : Canvas) : Canvas.Flips (fun _ => False) c c :=
  ⟨fun _ h => h.elim, fun _ _ => rfl, by simp⟩

theorem Canvas.Flips.congr {S T : Nat → Prop} {c d : Canvas} (h : Canvas.Flips S c d) (hST : ∀ k, S k ↔ T k) :
    Canvas.Flips T c d := by
  have : S = T := funext fun k => propext (hST k)
  exact this ▸ h

/-- Flipping one set and then a disjoint one flips both. -/
theorem Canvas.Flips.append {S T : Nat → Prop} {c d e : Canvas} (h1 : Canvas.Flips S c d) (h2 : Canvas.Flips T d e)
    (hdis : ∀ k, S k → ¬ T k) : Canvas.Flips (fun k => S k ∨ T k) c e where
  flipped k hk := by
    rcases hk with hk | hk
    · rw [h2.kept k (hdis k hk), h1.flipped k hk]
    · rw [h2.flipped k hk, h1.kept k (fun hs => hdis k hs hk)]
  kept k hk := by
    rw [h2.kept k (fun h => hk (.inr h)), h1.kept k (fun h => hk (.inl h))]
  hit := by
    rw [h2.hit, h1.hit, or_assoc]
    refine or_congr_right ⟨?_, ?_⟩
    · rintro (⟨k, h, hp⟩ | ⟨k, h, hp⟩)
      · exact ⟨k, .inl h, hp⟩
      · exact ⟨k, .inr h, by rw [← h1.kept k (fun hs => hdis k hs h)]; exact hp⟩
    · rintro ⟨k, h | h, hp⟩
      · exact .inl ⟨k, h, hp⟩
      · exact .inr ⟨k, h, by rw [h1.kept k (fun hs => hdis k hs h)]; exact hp⟩

theorem plot_flips {k : Nat} {c : Canvas} (h : k ≤ 2047) :
    ∃ c', plot k c = .ok c' ∧ Canvas.Flips (fun j => j = k) c c' := by
  rcases plot_cases k c with ⟨_, hp⟩ | ⟨hbad, _⟩
  · refine ⟨_, hp, ⟨?_, ?_, ?_⟩⟩
    · rintro j rfl
      have : j < 2048 := by omega
      simp [pixel_toggle, this]
    · intro j hj
      have : k ≠ j := fun e => hj e.symm
      simp [pixel_toggle, this]
    · simp
  · omega

/-- A row whose 1 bits all lie on the display flips exactly their pixels. -/
theorem drawBits_ok (b : Byte) (base col count : Nat) (c : Canvas)
    (h : ∀ j < count, spriteBit b (col + j) = true → base + (col + j) ≤ 2047) :
    ∃ c', drawBits b base col count c = .ok c' ∧
      Canvas.Flips (fun k => ∃ j < count, spriteBit b (col + j) = true ∧ base + (col + j) = k) c c' := by
  induction count generalizing col c with
  | zero => exact ⟨c, rfl, (Canvas.Flips.none c).congr (by simp)⟩
  | succ n ih =>
    have hn : ∀ j < n, spriteBit b (col + 1 + j) = true → base + (col + 1 + j) ≤ 2047 := fun j hj hs => by
      have := h (j + 1) (by omega) (by rw [← hs]; congr 1; omega)
      omega
    by_cases hb : spriteBit b col = true
    · obtain ⟨c1, hp, hf1⟩ := plot_flips (k := base + col) (c := c) (h 0 (by omega) hb)
      obtain ⟨c2, hd, hf2⟩ := ih (col + 1) c1 hn
      refine ⟨c2, by simp [drawBits, hb, hp, hd], (hf1.append hf2 ?_).congr ?_⟩
      · rintro k rfl ⟨j, _, _, hj⟩; omega
      · intro k
        constructor
        · rintro (rfl | ⟨j, hj, hs, rfl⟩)
          · exact ⟨0, by omega, hb, by omega⟩
          · exact ⟨j + 1, by omega, by rw [← hs]; congr 1; omega, by omega⟩
        · rintro ⟨j, hj, hs, rfl⟩
          cases j with
          | zero => exact .inl (by omega)
          | succ j => exact .inr ⟨j, by omega, by rw [← hs]; congr 1; omega, by omega⟩
    · obtain ⟨c2, hd, hf2⟩ := ih (col + 1) c hn
      refine ⟨c2, by simp [drawBits, hb, hd], hf2.congr ?_⟩
      intro k
      constructor
      · rintro ⟨j, hj, hs, rfl⟩
        exact ⟨j + 1, by omega, by rw [← hs]; congr 1; omega, by omega⟩
      · rintro ⟨j, hj, hs, rfl⟩
        cases j with
        | zero => exact absurd hs hb
        | succ j => exact ⟨j, by omega, by rw [← hs]; congr 1; omega, by omega⟩

/-- A row whose first 1 bit beyond the display is the `j`-th of the run raises DisplayOutOfRange there. -/
theorem drawBits_error (b : Byte) (base col count j : Nat) (c : Canvas) (hj : j < count)
    (hb : spriteBit b (col + j) = true) (hbad : 2047 < base + (col + j))
    (hgood : ∀ i < j, spriteBit b (col + i) = true → base + (col + i) ≤ 2047) :
    drawBits b base col count c = .error ⟨.displayOutOfRange, base + (col + j)⟩ := by
  induction j generalizing col count c with
  | zero =>
    obtain ⟨n, rfl⟩ : ∃ n, count = n + 1 := ⟨count - 1, by omega⟩
    rcases plot_cases (base + col) c with ⟨hle, _⟩ | ⟨_, hp⟩
    · omega
    · have hb0 : spriteBit b col = true := hb
      simp [drawBits, hb0, hp]
  | succ j ih =>
    obtain ⟨n, rfl⟩ : ∃ n, count = n + 1 := ⟨count - 1, by omega⟩
    have step : ∀ d : Canvas, drawBits b base (col + 1) n d = .error ⟨.displayOutOfRange, base + (col + (j + 1))⟩ := fun d => by
      rw [ih (col + 1) n d (by omega) (by rw [← hb]; congr 1; omega) (by omega)
        (fun i hi hs => by have := hgood (i + 1) (by omega) (by rw [← hs]; congr 1; omega); omega)]
      congr 2; omega
    by_cases hb0 : spriteBit b col = true
    · obtain ⟨c1, hp, _⟩ := plot_flips (k := base + col) (c := c) (hgood 0 (by omega) hb0)
      simp [drawBits, hb0, hp, step]
    · simp [drawBits, hb0, step]

/-- The pixel index of row `row` and column `col` of a sprite at `(vx, vy)` (R212). -/
abbrev pixelIndex (vx vy row col : Nat) : Nat := (vx + col) + (vy + row) * 64

/-- The pixels of the 1 bits of the rows `row .. row + count - 1`. -/
def rowsCover (m : Memory) (i vx vy row count k : Nat) : Prop :=
  ∃ r col, row ≤ r ∧ r < row + count ∧ col < 8 ∧ spriteBit (m.read (i + r)) col = true ∧ pixelIndex vx vy r col = k

/-- Rows all in memory whose 1 bits all lie on the display flip exactly their pixels. -/
theorem drawRows_ok (m : Memory) (i vx vy row count : Nat) (c : Canvas)
    (h : ∀ r, row ≤ r → r < row + count → i + r ≤ 0xFFF ∧
      ∀ col < 8, spriteBit (m.read (i + r)) col = true → pixelIndex vx vy r col ≤ 2047) :
    ∃ c', drawRows m i vx vy row count c = .ok c' ∧ Canvas.Flips (rowsCover m i vx vy row count) c c' := by
  induction count generalizing row c with
  | zero => exact ⟨c, rfl, (Canvas.Flips.none c).congr (fun k => ⟨False.elim, fun ⟨r, _, h1, h2, _⟩ => by omega⟩)⟩
  | succ n ih =>
    obtain ⟨hmem, hpix⟩ := h row (le_refl _) (by omega)
    obtain ⟨c1, hd1, hf1⟩ := drawBits_ok (m.read (i + row)) (vx + (vy + row) * 64) 0 8 c (fun j hj hs => by
      rw [Nat.zero_add] at hs ⊢
      have := hpix j hj hs
      simp only [pixelIndex] at this; omega)
    obtain ⟨c2, hd2, hf2⟩ := ih (row + 1) c1 (fun r h1 h2 => h r (by omega) (by omega))
    refine ⟨c2, by simp [drawRows, memRead_ok hmem, Config.displayWidth, hd1, hd2], (hf1.append hf2 ?_).congr ?_⟩
    · rintro k ⟨j, hj, _, rfl⟩ ⟨r, col, h1, _, h3, _, h5⟩
      simp only [pixelIndex] at h5; omega
    · intro k
      constructor
      · rintro (⟨j, hj, hs, rfl⟩ | ⟨r, col, h1, h2, h3, h4, rfl⟩)
        · exact ⟨row, j, le_refl _, by omega, hj, by rw [← hs, Nat.zero_add], by simp only [pixelIndex]; omega⟩
        · exact ⟨r, col, by omega, by omega, h3, h4, rfl⟩
      · rintro ⟨r, col, h1, h2, h3, h4, rfl⟩
        by_cases hr : r = row
        · subst hr
          exact .inl ⟨col, h3, by rw [Nat.zero_add]; exact h4, by simp only [pixelIndex]; omega⟩
        · exact .inr ⟨r, col, by omega, by omega, h3, h4, rfl⟩

/-- Row `r` raises nothing: its byte is in memory and its 1 bits are on the display. -/
def rowFine (m : Memory) (i vx vy r : Nat) : Prop :=
  i + r ≤ 0xFFF ∧ ∀ col < 8, spriteBit (m.read (i + r)) col = true → pixelIndex vx vy r col ≤ 2047

/-- Rows before `r` that are fine are passed; what row `r` raises is what the draw raises (R214). -/
theorem drawRows_error (m : Memory) (i vx vy row count r : Nat) (c : Canvas) (e : Raise)
    (h1 : row ≤ r) (h2 : r < row + count) (hfine : ∀ q, row ≤ q → q < r → rowFine m i vx vy q)
    (hrow : ∀ (n : Nat) (d : Canvas), drawRows m i vx vy r (n + 1) d = .error e) :
    drawRows m i vx vy row count c = .error e := by
  induction count generalizing row c with
  | zero => omega
  | succ n ih =>
    by_cases hr : row = r
    · subst hr; exact hrow n c
    · obtain ⟨hmem, hpix⟩ := hfine row (le_refl _) (by omega)
      obtain ⟨c1, hd1, _⟩ := drawBits_ok (m.read (i + row)) (vx + (vy + row) * 64) 0 8 c (fun j hj hs => by
        rw [Nat.zero_add] at hs ⊢
        have := hpix j hj hs
        simp only [pixelIndex] at this; omega)
      simp only [drawRows, memRead_ok hmem, Config.displayWidth, hd1]
      exact ih (row + 1) c1 (by omega) (by omega) (fun q hq1 hq2 => hfine q (by omega) hq2)

/-- A row beyond memory raises DataOutOfRange. -/
theorem drawRows_row_beyond_memory (m : Memory) (i vx vy r n : Nat) (d : Canvas) (h : 0xFFF < i + r) :
    drawRows m i vx vy r (n + 1) d = .error ⟨.dataOutOfRange, i + r⟩ := by
  simp [drawRows, memRead_error h]

/-- A row in memory whose first 1 bit beyond the display is at column `col` raises DisplayOutOfRange. -/
theorem drawRows_bit_beyond_display (m : Memory) (i vx vy r col n : Nat) (d : Canvas) (hmem : i + r ≤ 0xFFF)
    (hcol : col < 8) (hb : spriteBit (m.read (i + r)) col = true) (hbad : 2047 < pixelIndex vx vy r col)
    (hgood : ∀ j < col, spriteBit (m.read (i + r)) j = true → pixelIndex vx vy r j ≤ 2047) :
    drawRows m i vx vy r (n + 1) d = .error ⟨.displayOutOfRange, pixelIndex vx vy r col⟩ := by
  have := drawBits_error (m.read (i + r)) (vx + (vy + r) * 64) 0 8 col d hcol (by rw [Nat.zero_add]; exact hb)
    (by simp only [pixelIndex] at hbad; omega) (fun j hj hs => by
      rw [Nat.zero_add] at hs ⊢
      have := hgood j hj hs
      simp only [pixelIndex] at this; omega)
  simp only [drawRows, memRead_ok hmem, Config.displayWidth, this]
  congr 2
  simp only [pixelIndex]; omega

/-- What a draw can answer, whichever it is. -/
theorem drawRows_cases (m : Memory) (i vx vy count : Nat) (c : Canvas) :
    (∃ c', drawRows m i vx vy 0 count c = .ok c') ∨
    (∃ r < count, 0xFFF < i + r ∧ drawRows m i vx vy 0 count c = .error ⟨.dataOutOfRange, i + r⟩) ∨
    (∃ r col, r < count ∧ col < 8 ∧ spriteBit (m.read (i + r)) col = true ∧ 2047 < pixelIndex vx vy r col ∧
      drawRows m i vx vy 0 count c = .error ⟨.displayOutOfRange, pixelIndex vx vy r col⟩) := by
  classical
  by_cases h : ∀ r < count, rowFine m i vx vy r
  · obtain ⟨c', hc, _⟩ := drawRows_ok m i vx vy 0 count c (fun r _ h2 => h r (by omega))
    exact .inl ⟨c', hc⟩
  · have hex : ∃ r, r < count ∧ ¬ rowFine m i vx vy r := by
      by_contra hc
      exact h fun r hr => by_contra fun hn => hc ⟨r, hr, hn⟩
    obtain ⟨hr, hbad⟩ := Nat.find_spec hex
    have hfine : ∀ q, 0 ≤ q → q < Nat.find hex → rowFine m i vx vy q := fun q _ hq => by
      by_contra hn
      exact Nat.find_min hex hq ⟨by omega, hn⟩
    generalize Nat.find hex = r at hr hbad hfine
    by_cases hmem : i + r ≤ 0xFFF
    · have hcols : ∃ col, col < 8 ∧ spriteBit (m.read (i + r)) col = true ∧ 2047 < pixelIndex vx vy r col := by
        by_contra hc
        exact hbad ⟨hmem, fun col hcol hs => not_lt.mp fun hlt => hc ⟨col, hcol, hs, hlt⟩⟩
      obtain ⟨h1, h2, h3⟩ := Nat.find_spec hcols
      refine .inr (.inr ⟨r, Nat.find hcols, hr, h1, h2, h3, drawRows_error m i vx vy 0 count r c _ (by omega) (by omega) hfine
        fun n d => drawRows_bit_beyond_display m i vx vy r _ n d hmem h1 h2 h3 fun j hj hs => ?_⟩)
      exact not_lt.mp fun hlt => Nat.find_min hcols hj ⟨by omega, hs, hlt⟩
    · exact .inr (.inl ⟨r, hr, by omega, drawRows_error m i vx vy 0 count r c _ (by omega) (by omega) hfine
        fun n d => drawRows_row_beyond_memory m i vx vy r n d (by omega)⟩)

/-! ## The end of a meaning that may raise -/

/-- A meaning that may raise always answers a next state: the one it computed, or the fault. -/
theorem orRaise_next (s : State) (r : Except Raise State) :
    (∃ t, r = .ok t ∧ orRaise s r = .next t) ∨ (∃ e, r = .error e ∧ orRaise s r = .next (raise e s)) := by
  cases r with
  | ok t => exact .inl ⟨t, rfl, rfl⟩
  | error e => exact .inr ⟨e, rfl, rfl⟩

end Sys2Proof.Machine
end

