-- ==== Sys2Proof/Laws/PerInstr.lean ====
section
/-! SUPPORT. Statements made per instruction. Family EncodesInRow: the canonical word of an instruction lies in
its own row of the opcode table (R94 to R98) and has 0 in every bit that no rule reads (R99). -/

namespace Sys2Proof.Laws.EncodesInRow

open Sys2Proof.Machine

/-- The encoder's word has the instruction's own pattern under its own mask, and is canonical. -/
def Statement (i : Instr) : Prop :=
  (∃ row ∈ opcodeTable, row.mnemonic = i.mnemonic ∧ encode i &&& row.mask = row.pattern) ∧ canonicalWord (encode i) = true

/-- Format A words under the mask 0xF000, which leaves the family alone. -/
theorem wordA_mask (f : BitVec 4) (nnn : Addr12) : wordA f nnn &&& 0xF000#16 = wordA f 0 := by
  apply BitVec.eq_of_toNat_eq
  have hn := nnn.isLt
  rw [and_F000]
  simp only [bitsOf, wordA_toNat]
  have : (0 : Addr12).toNat = 0 := rfl
  have := f.isLt
  omega

/-- Format XI words under the mask 0xF000. -/
theorem wordX_mask_family (f : BitVec 4) (x : Reg) (nn : Byte) : wordX f x nn &&& 0xF000#16 = wordX f 0 0 := by
  apply BitVec.eq_of_toNat_eq
  have hx := x.isLt
  have hn := nn.isLt
  have hf := f.isLt
  rw [and_F000]
  simp only [bitsOf, wordX_toNat]
  have h1 : (0 : Byte).toNat = 0 := rfl
  have h2 : (0 : Reg).val = 0 := rfl
  omega

/-- Format XS words under the mask 0xF0FF. -/
theorem wordX_mask_low (f : BitVec 4) (x : Reg) (nn : Byte) : wordX f x nn &&& 0xF0FF#16 = wordX f 0 nn := by
  apply BitVec.eq_of_toNat_eq
  have hx := x.isLt
  have hn := nn.isLt
  have hf := f.isLt
  rw [and_F0FF]
  simp only [bitsOf, wordX_toNat]
  have h2 : (0 : Reg).val = 0 := rfl
  omega

/-- Format XY and XYN words under the mask 0xF000. -/
theorem wordXY_mask_family (f : BitVec 4) (x y : Reg) (n : Nibble) : wordXY f x y n &&& 0xF000#16 = wordXY f 0 0 0 := by
  apply BitVec.eq_of_toNat_eq
  have hx := x.isLt
  have hy := y.isLt
  have hn := n.isLt
  have hf := f.isLt
  rw [and_F000]
  simp only [bitsOf, wordXY_toNat]
  have h1 : (0 : Nibble).toNat = 0 := rfl
  have h2 : (0 : Reg).val = 0 := rfl
  omega

/-- Format XY words under the mask 0xF00F. -/
theorem wordXY_mask_low (f : BitVec 4) (x y : Reg) (n : Nibble) : wordXY f x y n &&& 0xF00F#16 = wordXY f 0 0 n := by
  apply BitVec.eq_of_toNat_eq
  have hx := x.isLt
  have hy := y.isLt
  have hn := n.isLt
  have hf := f.isLt
  rw [and_F00F]
  simp only [bitsOf, wordXY_toNat]
  have h2 : (0 : Reg).val = 0 := rfl
  omega

/-- The family nibble of a word of each format. -/
theorem family_wordA (f : BitVec 4) (nnn : Addr12) : (wordA f nnn).extractLsb' 12 4 = f := by
  apply BitVec.eq_of_toNat_eq
  have hn := nnn.isLt
  have hf := f.isLt
  rw [BitVec.extractLsb'_toNat, wordA_toNat, Nat.shiftRight_eq_div_pow]
  omega

theorem family_wordX (f : BitVec 4) (x : Reg) (nn : Byte) : (wordX f x nn).extractLsb' 12 4 = f := by
  apply BitVec.eq_of_toNat_eq
  have hx := x.isLt
  have hn := nn.isLt
  have hf := f.isLt
  rw [BitVec.extractLsb'_toNat, wordX_toNat, Nat.shiftRight_eq_div_pow]
  omega

theorem family_wordXY (f : BitVec 4) (x y : Reg) (n : Nibble) : (wordXY f x y n).extractLsb' 12 4 = f := by
  apply BitVec.eq_of_toNat_eq
  have hx := x.isLt
  have hy := y.isLt
  have hn := n.isLt
  have hf := f.isLt
  rw [BitVec.extractLsb'_toNat, wordXY_toNat, Nat.shiftRight_eq_div_pow]
  omega

theorem nibble_wordXY (f : BitVec 4) (x y : Reg) (n : Nibble) : (wordXY f x y n).extractLsb' 0 4 = n := by
  apply BitVec.eq_of_toNat_eq
  have hx := x.isLt
  have hy := y.isLt
  have hn := n.isLt
  have hf := f.isLt
  rw [BitVec.extractLsb'_toNat, wordXY_toNat, Nat.shiftRight_eq_div_pow]
  omega

theorem clearScreen : Statement .clearScreen :=
  ⟨⟨⟨"clear-screen", 0x00E0, 0xF0FF⟩, by decide, rfl, by decide⟩, by decide⟩

theorem ret : Statement .ret :=
  ⟨⟨⟨"return", 0x00EE, 0xF0FF⟩, by decide, rfl, by decide⟩, by decide⟩

theorem jump (nnn : Addr12) : Statement (.jump nnn) :=
  ⟨⟨⟨"jump", 0x1000, 0xF000⟩, by decide, rfl, (wordA_mask ..).trans (by decide)⟩, by simp [canonicalWord, encode, family_wordA]⟩

theorem call (nnn : Addr12) : Statement (.call nnn) :=
  ⟨⟨⟨"call", 0x2000, 0xF000⟩, by decide, rfl, (wordA_mask ..).trans (by decide)⟩, by simp [canonicalWord, encode, family_wordA]⟩

theorem skipIfEqualImmediate (x : Reg) (nn : Byte) : Statement (.skipIfEqualImmediate x nn) :=
  ⟨⟨⟨"skip-if-equal-immediate", 0x3000, 0xF000⟩, by decide, rfl, (wordX_mask_family ..).trans (by decide)⟩, by simp [canonicalWord, encode, family_wordX]⟩

theorem skipIfNotEqualImmediate (x : Reg) (nn : Byte) : Statement (.skipIfNotEqualImmediate x nn) :=
  ⟨⟨⟨"skip-if-not-equal-immediate", 0x4000, 0xF000⟩, by decide, rfl, (wordX_mask_family ..).trans (by decide)⟩, by simp [canonicalWord, encode, family_wordX]⟩

theorem skipIfRegistersEqual (x : Reg) (y : Reg) : Statement (.skipIfRegistersEqual x y) :=
  ⟨⟨⟨"skip-if-registers-equal", 0x5000, 0xF000⟩, by decide, rfl, (wordXY_mask_family ..).trans (by decide)⟩, by simp [canonicalWord, encode, family_wordXY, nibble_wordXY]⟩

theorem setImmediate (x : Reg) (nn : Byte) : Statement (.setImmediate x nn) :=
  ⟨⟨⟨"set-immediate", 0x6000, 0xF000⟩, by decide, rfl, (wordX_mask_family ..).trans (by decide)⟩, by simp [canonicalWord, encode, family_wordX]⟩

theorem addImmediate (x : Reg) (nn : Byte) : Statement (.addImmediate x nn) :=
  ⟨⟨⟨"add-immediate", 0x7000, 0xF000⟩, by decide, rfl, (wordX_mask_family ..).trans (by decide)⟩, by simp [canonicalWord, encode, family_wordX]⟩

theorem assign (x : Reg) (y : Reg) : Statement (.assign x y) :=
  ⟨⟨⟨"assign", 0x8000, 0xF00F⟩, by decide, rfl, (wordXY_mask_low ..).trans (by decide)⟩, by simp [canonicalWord, encode, family_wordXY, nibble_wordXY]⟩

theorem or (x : Reg) (y : Reg) : Statement (.or x y) :=
  ⟨⟨⟨"or", 0x8001, 0xF00F⟩, by decide, rfl, (wordXY_mask_low ..).trans (by decide)⟩, by simp [canonicalWord, encode, family_wordXY, nibble_wordXY]⟩

theorem and (x : Reg) (y : Reg) : Statement (.and x y) :=
  ⟨⟨⟨"and", 0x8002, 0xF00F⟩, by decide, rfl, (wordXY_mask_low ..).trans (by decide)⟩, by simp [canonicalWord, encode, family_wordXY, nibble_wordXY]⟩

theorem xor (x : Reg) (y : Reg) : Statement (.xor x y) :=
  ⟨⟨⟨"xor", 0x8003, 0xF00F⟩, by decide, rfl, (wordXY_mask_low ..).trans (by decide)⟩, by simp [canonicalWord, encode, family_wordXY, nibble_wordXY]⟩

theorem add (x : Reg) (y : Reg) : Statement (.add x y) :=
  ⟨⟨⟨"add", 0x8004, 0xF00F⟩, by decide, rfl, (wordXY_mask_low ..).trans (by decide)⟩, by simp [canonicalWord, encode, family_wordXY, nibble_wordXY]⟩

theorem subtract (x : Reg) (y : Reg) : Statement (.subtract x y) :=
  ⟨⟨⟨"subtract", 0x8005, 0xF00F⟩, by decide, rfl, (wordXY_mask_low ..).trans (by decide)⟩, by simp [canonicalWord, encode, family_wordXY, nibble_wordXY]⟩

theorem shiftRight (x : Reg) (y : Reg) : Statement (.shiftRight x y) :=
  ⟨⟨⟨"shift-right", 0x8006, 0xF00F⟩, by decide, rfl, (wordXY_mask_low ..).trans (by decide)⟩, by simp [canonicalWord, encode, family_wordXY, nibble_wordXY]⟩

theorem subtractReverse (x : Reg) (y : Reg) : Statement (.subtractReverse x y) :=
  ⟨⟨⟨"subtract-reverse", 0x8007, 0xF00F⟩, by decide, rfl, (wordXY_mask_low ..).trans (by decide)⟩, by simp [canonicalWord, encode, family_wordXY, nibble_wordXY]⟩

theorem shiftLeft (x : Reg) : Statement (.shiftLeft x) :=
  ⟨⟨⟨"shift-left", 0x800E, 0xF00F⟩, by decide, rfl, (wordXY_mask_low ..).trans (by decide)⟩, by revert x; decide⟩

theorem skipIfRegistersNotEqual (x : Reg) (y : Reg) : Statement (.skipIfRegistersNotEqual x y) :=
  ⟨⟨⟨"skip-if-registers-not-equal", 0x9000, 0xF000⟩, by decide, rfl, (wordXY_mask_family ..).trans (by decide)⟩, by simp [canonicalWord, encode, family_wordXY, nibble_wordXY]⟩

theorem setIndex (nnn : Addr12) : Statement (.setIndex nnn) :=
  ⟨⟨⟨"set-index", 0xA000, 0xF000⟩, by decide, rfl, (wordA_mask ..).trans (by decide)⟩, by simp [canonicalWord, encode, family_wordA]⟩

theorem jumpWithOffset (nnn : Addr12) : Statement (.jumpWithOffset nnn) :=
  ⟨⟨⟨"jump-with-offset", 0xB000, 0xF000⟩, by decide, rfl, (wordA_mask ..).trans (by decide)⟩, by simp [canonicalWord, encode, family_wordA]⟩

theorem randomAnd (x : Reg) (nn : Byte) : Statement (.randomAnd x nn) :=
  ⟨⟨⟨"random-and", 0xC000, 0xF000⟩, by decide, rfl, (wordX_mask_family ..).trans (by decide)⟩, by simp [canonicalWord, encode, family_wordX]⟩

theorem drawSprite (x : Reg) (y : Reg) (n : Nibble) : Statement (.drawSprite x y n) :=
  ⟨⟨⟨"draw-sprite", 0xD000, 0xF000⟩, by decide, rfl, (wordXY_mask_family ..).trans (by decide)⟩, by simp [canonicalWord, encode, family_wordXY, nibble_wordXY]⟩

theorem skipIfKeyPressed (x : Reg) : Statement (.skipIfKeyPressed x) :=
  ⟨⟨⟨"skip-if-key-pressed", 0xE09E, 0xF0FF⟩, by decide, rfl, (wordX_mask_low ..).trans (by decide)⟩, by simp [canonicalWord, encode, family_wordX]⟩

theorem skipIfKeyNotPressed (x : Reg) : Statement (.skipIfKeyNotPressed x) :=
  ⟨⟨⟨"skip-if-key-not-pressed", 0xE0A1, 0xF0FF⟩, by decide, rfl, (wordX_mask_low ..).trans (by decide)⟩, by simp [canonicalWord, encode, family_wordX]⟩

theorem getDelayTimer (x : Reg) : Statement (.getDelayTimer x) :=
  ⟨⟨⟨"get-delay-timer", 0xF007, 0xF0FF⟩, by decide, rfl, (wordX_mask_low ..).trans (by decide)⟩, by simp [canonicalWord, encode, family_wordX]⟩

theorem waitForKey (x : Reg) : Statement (.waitForKey x) :=
  ⟨⟨⟨"wait-for-key", 0xF00A, 0xF0FF⟩, by decide, rfl, (wordX_mask_low ..).trans (by decide)⟩, by simp [canonicalWord, encode, family_wordX]⟩

theorem setDelayTimer (x : Reg) : Statement (.setDelayTimer x) :=
  ⟨⟨⟨"set-delay-timer", 0xF015, 0xF0FF⟩, by decide, rfl, (wordX_mask_low ..).trans (by decide)⟩, by simp [canonicalWord, encode, family_wordX]⟩

theorem setSoundTimer (x : Reg) : Statement (.setSoundTimer x) :=
  ⟨⟨⟨"set-sound-timer", 0xF018, 0xF0FF⟩, by decide, rfl, (wordX_mask_low ..).trans (by decide)⟩, by simp [canonicalWord, encode, family_wordX]⟩

theorem addToIndex (x : Reg) : Statement (.addToIndex x) :=
  ⟨⟨⟨"add-to-index", 0xF01E, 0xF0FF⟩, by decide, rfl, (wordX_mask_low ..).trans (by decide)⟩, by simp [canonicalWord, encode, family_wordX]⟩

theorem loadFontAddress (x : Reg) : Statement (.loadFontAddress x) :=
  ⟨⟨⟨"load-font-address", 0xF029, 0xF0FF⟩, by decide, rfl, (wordX_mask_low ..).trans (by decide)⟩, by simp [canonicalWord, encode, family_wordX]⟩

theorem storeBCD (x : Reg) : Statement (.storeBCD x) :=
  ⟨⟨⟨"store-BCD", 0xF033, 0xF0FF⟩, by decide, rfl, (wordX_mask_low ..).trans (by decide)⟩, by simp [canonicalWord, encode, family_wordX]⟩

theorem storeRegisters (x : Reg) : Statement (.storeRegisters x) :=
  ⟨⟨⟨"store-registers", 0xF055, 0xF0FF⟩, by decide, rfl, (wordX_mask_low ..).trans (by decide)⟩, by simp [canonicalWord, encode, family_wordX]⟩

theorem loadRegisters (x : Reg) : Statement (.loadRegisters x) :=
  ⟨⟨⟨"load-registers", 0xF065, 0xF0FF⟩, by decide, rfl, (wordX_mask_low ..).trans (by decide)⟩, by simp [canonicalWord, encode, family_wordX]⟩

end Sys2Proof.Laws.EncodesInRow
end

