-- ==== Sys2Proof/Laws/Step.lean ====
section
/-! SUPPORT. The stages of a step around the execute stage, each inverted once (R120 to R128). -/

namespace Sys2Proof.Machine

@[simp] theorem wordOfBytes_toNat (high low : Byte) : (wordOfBytes high low).toNat = 256 * high.toNat + low.toNat := by
  have hl := low.isLt
  simp only [wordOfBytes, BitVec.toNat_append]
  rw [← Nat.shiftLeft_add_eq_or_of_lt hl, Nat.shiftLeft_eq]
  omega

/-- A fetch in range gives the word of R63. -/
theorem fetch_ok {s : State} (h : s.pc.toNat ≤ 0xFFE) :
    ∃ w, fetch s = .ok w ∧ w.toNat = wordAtPc s := by
  refine ⟨_, by simp only [fetch, if_pos h]; rfl, ?_⟩
  simp [wordAtPc]

theorem fetch_error {s : State} (h : 0xFFE < s.pc.toNat) : fetch s = .error ⟨.fetchOutOfRange, s.pc.toNat⟩ := by
  simp only [fetch, if_neg (show ¬ s.pc.toNat ≤ 0xFFE by omega)]

/-- A tick lowers a timer by one, down to 0 (R127). -/
@[simp] theorem tickTimer_toNat (v : Byte) : (tickTimer v).toNat = v.toNat - 1 := by
  unfold tickTimer
  split
  · rename_i h; subst h; rfl
  · rename_i h
    have hv : v.toNat ≠ 0 := fun e => h (BitVec.eq_of_toNat_eq (by simpa using e))
    have := v.isLt
    rw [BitVec.toNat_sub]
    change (2 ^ 8 - 1 + v.toNat) % 2 ^ 8 = _
    omega

theorem retire_ok {s t : State} (h : t.fault = none) : retire s t = tick t := by
  simp [retire, h]

theorem retire_fault {s t : State} {f : FaultRecord} (h : t.fault = some f) : retire s t = setFault (some f) s := by
  simp [retire, h]

@[simp] theorem advance_fault (w : Word) (s : State) : (advance w s).fault = s.fault := rfl

/-- The four ways the stages before execute can go (R120 to R125). -/
theorem frontEnd_cases (s : State) :
    ((∃ f, s.fault = some f) ∧ frontEnd s = .done s) ∨
    (s.fault = none ∧ 0xFFE < s.pc.toNat ∧ frontEnd s = .done (raiseAt s.pc 0 ⟨.fetchOutOfRange, s.pc.toNat⟩ s)) ∨
    (s.fault = none ∧ s.pc.toNat ≤ 0xFFE ∧ ∃ w r, fetch s = .ok w ∧ w.toNat = wordAtPc s ∧ decode w = .error r ∧
      frontEnd s = .done (tick (advance w s))) ∨
    (s.fault = none ∧ s.pc.toNat ≤ 0xFFE ∧ ∃ w i, fetch s = .ok w ∧ w.toNat = wordAtPc s ∧ decode w = .ok i ∧
      frontEnd s = .execute i (advance w s)) := by
  cases hf : s.fault with
  | some f => exact .inl ⟨⟨f, rfl⟩, by simp [frontEnd, hf]⟩
  | none =>
    by_cases hpc : s.pc.toNat ≤ 0xFFE
    · obtain ⟨w, hw, hn⟩ := fetch_ok hpc
      cases hd : decode w with
      | error r =>
        refine .inr (.inr (.inl ⟨rfl, hpc, w, r, hw, hn, hd, ?_⟩))
        simp [frontEnd, hf, hw, hd, retire_ok]
      | ok i => exact .inr (.inr (.inr ⟨rfl, hpc, w, i, hw, hn, hd, by simp [frontEnd, hf, hw, hd]⟩))
    · have h : 0xFFE < s.pc.toNat := by omega
      exact .inr (.inl ⟨rfl, h, by simp [frontEnd, hf, fetch_error h]⟩)

/-- The step once its first stages are known to end it. -/
theorem step_done {s t : State} (h : frontEnd s = .done t) : step s = .next t := by
  simp [step, h]

/-- The step once its first stages are known to lead to the execute stage. -/
theorem step_execute {s t u : State} {i : Instr} (h : frontEnd s = .execute i t) (he : exec i t = .next u) :
    step s = .next (retire s u) := by
  simp [step, h, he]

/-- A placed word is what the next step fetches (R63, R75). -/
theorem fetch_placeWord (w : Word) (s : State) : fetch (placeWord w s) = .ok w := by
  have hw : ∀ m : Memory, ∀ a : Nat,
      wordOfBytes (((m.write a (highByte w)).write (a + 1) (lowByte w)).read a)
        (((m.write a (highByte w)).write (a + 1) (lowByte w)).read (a + 1)) = w := fun m a => by
    simp only [Memory.read_write, Nat.left_eq_add, one_ne_zero, if_true, if_false]
    apply BitVec.eq_of_toNat_eq
    have := w.isLt
    simp only [wordOfBytes_toNat, highByte, lowByte, BitVec.extractLsb'_toNat, Nat.shiftRight_eq_div_pow]
    omega
  by_cases h : s.pc.toNat ≤ 0xFFE
  · simp only [fetch, placeWord, setFault_pc, setPc_pc, if_pos h, setFault_mem, setPc_mem, setMem_mem, hw]
  · simp only [fetch, placeWord, setFault_pc, setPc_pc, if_neg h, setFault_mem, setPc_mem, setMem_mem, Config.progBase,
      BitVec.toNat_ofNat, Nat.reducePow, Nat.reduceMod, Nat.reduceLeDiff, if_true]
    exact congrArg _ (hw s.mem 0x200)

end Sys2Proof.Machine
end

