-- ==== Sys2Proof/Tests/Slice0.lean ====
section
/-! SUPPORT. Tests of the model against spec/: ill-formed terms refused, words written out from the encoding
tables, one-step vectors of 95_test_vectors.md (named T, VS, VC, VA, VM, VG, VK there), and for every statement of
Certificates/Slice0/Obligations.lean that has hypotheses, values that meet them, one set for each clause. -/

namespace Sys2Proof.Tests
open Sys2Proof.Machine

/-! ## Helpers -/

/-- The reset state with these registers. -/
def regs (l : List (Reg × Byte)) : State := l.foldl (fun s p => writeReg p.1 p.2 s) State.reset

/-- The state with these bytes of memory. -/
def bytes (l : List (Nat × Byte)) (s : State) : State := setMem (l.foldl (fun m c => m.write c.1 c.2) s.mem) s

/-- The state one step later, with this word placed for the fetch. -/
def after (w : Nat) (s : State) : Option State :=
  match step (s.withFetchWord 16 w) with
  | .next t => some t
  | .fault _ | .refused _ => none

/-- Whether an instruction word was refused, and under which name. -/
def rejected (w : Word) : Option Reject :=
  match decode w with
  | .ok _ => none
  | .error r => some r

/-! ## Well-formedness: each check refuses an ill-formed term -/

/-- R99, R102: a word with an ignored bit set is not what an assembler emits. -/
theorem test_wellformed_refuses_words :
    canonicalWord 0x07EE = false ∧ canonicalWord 0x5121 = false ∧ canonicalWord 0x9127 = false ∧
    canonicalWord 0x812E = false := by decide

theorem test_wellformed_accepts_words : canonicalWord 0x00EE = true ∧ canonicalWord 0x810E = true := by decide

/-- R70, R71: the image lengths. -/
theorem test_wellformed_image_lengths :
    imageLengthOk 0 = false ∧ imageLengthOk 1 = true ∧ imageLengthOk 3584 = true ∧ imageLengthOk 3585 = false := by decide

/-- The canonical form of memory: unsorted, repeated, beyond 0xFFF, and equal to the unlisted byte. -/
theorem test_memory_wf_refuses :
    Memory.wf [(0x301, 1), (0x300, 1)] = false ∧ Memory.wf [(0x300, 1), (0x300, 2)] = false ∧
    Memory.wf [(0x1000, 1)] = false ∧ Memory.wf [(0x300, 0)] = false ∧ Memory.wf [(0x050, 0xF0)] = false := by decide

theorem test_memory_wf_accepts : Memory.wf [(0x050, 0), (0x300, 1), (0xFFF, 2)] = true := by decide

/-! ## Decoding: words written out from the tables of R94 to R98, one for each instruction -/

theorem test_decode_family0 : decode 0x00E0 = .ok .clearScreen ∧ decode 0x00EE = .ok .ret := by decide

theorem test_decode_families_1_to_7 :
    decode 0x1ABC = .ok (.jump 0xABC) ∧ decode 0x2456 = .ok (.call 0x456) ∧
    decode 0x332A = .ok (.skipIfEqualImmediate 3 0x2A) ∧ decode 0x432A = .ok (.skipIfNotEqualImmediate 3 0x2A) ∧
    decode 0x5120 = .ok (.skipIfRegistersEqual 1 2) ∧ decode 0x6A7F = .ok (.setImmediate 10 0x7F) ∧
    decode 0x7FFF = .ok (.addImmediate 15 0xFF) := by decide

theorem test_decode_family8 :
    decode 0x8120 = .ok (.assign 1 2) ∧ decode 0x8121 = .ok (.or 1 2) ∧ decode 0x8122 = .ok (.and 1 2) ∧
    decode 0x8123 = .ok (.xor 1 2) ∧ decode 0x8F14 = .ok (.add 15 1) ∧ decode 0x80F5 = .ok (.subtract 0 15) ∧
    decode 0x8126 = .ok (.shiftRight 1 2) ∧ decode 0x8017 = .ok (.subtractReverse 0 1) ∧
    decode 0x810E = .ok (.shiftLeft 1) := by decide

theorem test_decode_families_9_to_E :
    decode 0x9120 = .ok (.skipIfRegistersNotEqual 1 2) ∧ decode 0xA2F0 = .ok (.setIndex 0x2F0) ∧
    decode 0xBFFF = .ok (.jumpWithOffset 0xFFF) ∧ decode 0xC30F = .ok (.randomAnd 3 0x0F) ∧
    decode 0xD125 = .ok (.drawSprite 1 2 5) ∧ decode 0xE29E = .ok (.skipIfKeyPressed 2) ∧
    decode 0xE2A1 = .ok (.skipIfKeyNotPressed 2) := by decide

theorem test_decode_familyF :
    decode 0xF307 = .ok (.getDelayTimer 3) ∧ decode 0xF50A = .ok (.waitForKey 5) ∧ decode 0xF015 = .ok (.setDelayTimer 0) ∧
    decode 0xF118 = .ok (.setSoundTimer 1) ∧ decode 0xF41E = .ok (.addToIndex 4) ∧ decode 0xF029 = .ok (.loadFontAddress 0) ∧
    decode 0xF033 = .ok (.storeBCD 0) ∧ decode 0xFF55 = .ok (.storeRegisters 15) ∧ decode 0xF265 = .ok (.loadRegisters 2) := by
  decide

/-- R99: ignored bits (the non-canonical words of 95_test_vectors.md 2.1). -/
theorem test_decode_ignored_bits :
    decode 0x07EE = .ok .ret ∧ decode 0x0AE0 = .ok .clearScreen ∧ decode 0x512F = .ok (.skipIfRegistersEqual 1 2) ∧
    decode 0x9127 = .ok (.skipIfRegistersNotEqual 1 2) ∧ decode 0x812E = .ok (.shiftLeft 1) := by decide

/-- R100: the unrecognized words of 95_test_vectors.md 2.1 are rejected by name. -/
theorem test_decode_rejects :
    [0x0000, 0x0001, 0x00E1, 0x00FF, 0x0123].map rejected = List.replicate 5 (some .unrecognizedFamily0) ∧
    [0x8009, 0x812A, 0x812F, 0x8128].map rejected = List.replicate 4 (some .unrecognizedFamily8) ∧
    [0xE000, 0xE19F, 0xE2A0, 0xE2FF].map rejected = List.replicate 4 (some .unrecognizedFamilyE) ∧
    [0xF000, 0xF108, 0xF2FF, 0xF366].map rejected = List.replicate 4 (some .unrecognizedFamilyF) := by decide

/-- The host's two functions: the decoder's answer for a table word, and none for an unrecognized one. -/
theorem test_decodeTableWord :
    decodeTableWord 16 0xD125 = some (.drawSprite 1 2 5) ∧ decodeTableWord 16 0x8128 = none ∧
    nextInstr (State.reset.withFetchWord 16 0xD125) = some (.drawSprite 1 2 5) := by decide

/-! ## One-step vectors of 95_test_vectors.md -/

/-- VS1: the highest legal fetch address. -/
theorem test_fetch_highest : (after 0x1234 { State.reset with pc := 0xFFE }).map (·.pc) = some 0x234 := by decide

/-- VS4: an odd `pc`. -/
theorem test_fetch_odd :
    (after 0x6AB1 { State.reset with pc := 0x201 }).map (fun t => (t.pc, readReg t 10)) = some (0x203, 0xB1) := by decide

/-- VS7: an unrecognized word, its event and the tick. -/
theorem test_unrecognized :
    event (State.reset.withFetchWord 16 0x8128) = some ⟨0x8128, 0x200⟩ ∧
    (after 0x8128 { State.reset with dt := 1 }).map (fun t => (t.pc, t.opcode, t.dt, t.x)) =
      some (0x202, 0x8128, 0, State.reset.x) := by decide

/-- VC1 and VC2. -/
theorem test_return :
    (after 0x00EE { State.reset with sp := 2, stack := State.reset.stack.set 1 0x345 }).map (fun t => (t.pc, t.sp.val, stackAt t 1)) =
      some (0x345, 1, 0x345) ∧
    (after 0x00EE State.reset).map (fun t => (t.fault, t.pc, t.opcode)) = some (some ⟨.stackUnderflow, 0x200, 0x00EE, 0⟩, 0x200, 0) := by
  decide

/-- VC4. -/
theorem test_jump : (after 0x1ABC State.reset).map (·.pc) = some 0xABC := by decide

/-- VC6 and VC7. -/
theorem test_call :
    (after 0x2456 { State.reset with sp := 15 }).map (fun t => (stackAt t 15, t.sp.val, t.pc)) = some (0x202, 16, 0x456) ∧
    (after 0x2456 { State.reset with sp := 16 }).map (fun t => (t.fault, t.pc, t.stack)) =
      some (some ⟨.stackOverflow, 0x200, 0x2456, 16⟩, 0x200, State.reset.stack) := by decide

/-- VC8 to VC11. -/
theorem test_skip_immediate :
    (after 0x332A (regs [(3, 0x2A)])).map (·.pc) = some 0x204 ∧ (after 0x332A (regs [(3, 0x2B)])).map (·.pc) = some 0x202 ∧
    (after 0x432A (regs [(3, 0x2B)])).map (·.pc) = some 0x204 ∧ (after 0x432A (regs [(3, 0x2A)])).map (·.pc) = some 0x202 := by decide

/-- VC12, VC13, VC16, VC17. -/
theorem test_skip_registers :
    (after 0x5120 (regs [(1, 7), (2, 7)])).map (·.pc) = some 0x204 ∧ (after 0x5120 (regs [(1, 7), (2, 8)])).map (·.pc) = some 0x202 ∧
    (after 0x9120 (regs [(1, 7), (2, 8)])).map (·.pc) = some 0x204 ∧ (after 0x9120 (regs [(1, 7), (2, 7)])).map (·.pc) = some 0x202 := by
  decide

/-- VC20 and VC21. -/
theorem test_jump_with_offset :
    (after 0xBFFF (regs [(0, 0xFF)])).map (·.pc) = some 0x10FE ∧ (after 0xB300 (regs [(3, 0x55)])).map (·.pc) = some 0x300 := by decide

/-- VA1 and VA2. -/
theorem test_set_immediate :
    (after 0x6A7F State.reset).map (fun t => readReg t 10) = some 0x7F ∧
    (after 0x6F00 (regs [(15, 1)])).map (fun t => readReg t 15) = some 0 := by decide

/-- VA3 and VA5. -/
theorem test_add_immediate :
    (after 0x7002 (regs [(0, 0xFF), (15, 1)])).map (fun t => (readReg t 0, readReg t 15)) = some (1, 1) ∧
    (after 0x7FFF (regs [(15, 2)])).map (fun t => readReg t 15) = some 1 := by decide

/-- VA6. -/
theorem test_assign : (after 0x8120 (regs [(2, 0x33)])).map (fun t => (readReg t 1, readReg t 2)) = some (0x33, 0x33) := by decide

/-- VA7, VA8, VA9. -/
theorem test_logic :
    (after 0x8121 (regs [(1, 0xF0), (2, 0x0F), (15, 1)])).map (fun t => (readReg t 1, readReg t 15)) = some (0xFF, 1) ∧
    (after 0x8122 (regs [(1, 0xF0), (2, 0x3C)])).map (fun t => readReg t 1) = some 0x30 ∧
    (after 0x8123 (regs [(1, 0xF0), (2, 0x3C)])).map (fun t => readReg t 1) = some 0xCC := by decide

/-- VA14 and VA15: sums of exactly 256 and 255. -/
theorem test_add :
    (after 0x8014 (regs [(0, 0xFF), (1, 1)])).map (fun t => (readReg t 0, readReg t 15)) = some (0, 1) ∧
    (after 0x8014 (regs [(0, 0x80), (1, 0x7F)])).map (fun t => (readReg t 0, readReg t 15)) = some (0xFF, 0) := by decide

/-- VA17 and VA18: the flag register as an operand. -/
theorem test_add_flag_operand :
    (after 0x8F14 (regs [(15, 0xC8), (1, 0x64)])).map (fun t => readReg t 15) = some 0x2C ∧
    (after 0x80F4 (regs [(0, 0xFF), (15, 1)])).map (fun t => (readReg t 0, readReg t 15)) = some (0, 1) := by decide

/-- VA19 and VA21. -/
theorem test_subtract :
    (after 0x8015 (regs [(0, 5), (1, 10)])).map (fun t => (readReg t 0, readReg t 15)) = some (0xFB, 0) ∧
    (after 0x8015 (regs [(0, 7), (1, 7)])).map (fun t => (readReg t 0, readReg t 15)) = some (0, 1) := by decide

/-- VA23, VA24, VA25. -/
theorem test_subtract_flag_operand :
    (after 0x8F15 (regs [(15, 10), (1, 3)])).map (fun t => readReg t 15) = some 0xFE ∧
    (after 0x80F5 (regs [(0, 10), (15, 3)])).map (fun t => (readReg t 0, readReg t 15)) = some (9, 1) ∧
    (after 0x8FF5 (regs [(15, 9)])).map (fun t => readReg t 15) = some 0 := by decide

/-- VA26 and VA27: the source is `Y`. -/
theorem test_shift_right :
    (after 0x8126 (regs [(2, 5)])).map (fun t => (readReg t 1, readReg t 15, readReg t 2)) = some (2, 1, 5) ∧
    (after 0x8126 (regs [(2, 0xFE), (15, 1), (1, 0x33)])).map (fun t => (readReg t 1, readReg t 15)) = some (0x7F, 0) := by decide

/-- VA29 and VA30. -/
theorem test_shift_right_flag_operand :
    (after 0x8F26 (regs [(2, 7)])).map (fun t => readReg t 15) = some 3 ∧
    (after 0x81F6 (regs [(1, 0x77), (15, 3)])).map (fun t => (readReg t 1, readReg t 15)) = some (0, 1) := by decide

/-- VA31 and VA33: equal operands leave flag 0. -/
theorem test_subtract_reverse :
    (after 0x8017 (regs [(0, 5), (1, 10)])).map (fun t => (readReg t 0, readReg t 15)) = some (5, 1) ∧
    (after 0x8017 (regs [(0, 7), (1, 7), (15, 1)])).map (fun t => (readReg t 0, readReg t 15)) = some (0, 0) := by decide

/-- VA34 and VA35. -/
theorem test_subtract_reverse_flag_operand :
    (after 0x8F17 (regs [(15, 3), (1, 10)])).map (fun t => readReg t 15) = some 9 ∧
    (after 0x80F7 (regs [(0, 3), (15, 10)])).map (fun t => (readReg t 0, readReg t 15)) = some (0xFE, 1) := by decide

/-- VA38: the source is `X`. -/
theorem test_shift_left :
    (after 0x812E (regs [(1, 0x81), (2, 1)])).map (fun t => (readReg t 1, readReg t 15, readReg t 2)) = some (2, 1, 1) := by decide

/-- VA39 and VA40. -/
theorem test_shift_left_flag_operand :
    (after 0x8F0E (regs [(15, 0x80)])).map (fun t => readReg t 15) = some 2 ∧
    (after 0x8F0E (regs [(15, 0x7F)])).map (fun t => readReg t 15) = some 0 := by decide

/-- R171: the byte is the free value, so the test names it and not a number. -/
theorem test_random_and :
    exec (.randomAnd 3 0x0F) State.reset = .next (setDraws 1 (writeReg 3 (Config.rnd 0 &&& 0x0F) State.reset)) := rfl

/-- VM1. -/
theorem test_set_index : (after 0xA2F0 { State.reset with index := 0xFFFF }).map (·.index) = some 0x2F0 := by decide

/-- VM2 and VM3. -/
theorem test_add_to_index :
    (after 0xF41E (setIndex 0xFFE (regs [(4, 5)]))).map (fun t => (t.index, t.fault)) = some (0x1003, none) ∧
    (after 0xF41E (setIndex 0xFFFF (regs [(4, 1)]))).map (fun t => (t.index, readReg t 15)) = some (0, 0) := by decide

/-- VM4 (T8), VM6 and VM7. -/
theorem test_load_font_address :
    (after 0xF029 (regs [(0, 10)])).map (·.index) = some 0x082 ∧ (after 0xF029 (regs [(0, 15)])).map (·.index) = some 0x09B ∧
    (after 0xF029 (regs [(0, 16)])).map (fun t => (t.fault, t.index)) = some (some ⟨.fontIndexInvalid, 0x200, 0xF029, 16⟩, 0) := by decide

/-- T8: glyph A. -/
theorem test_font_glyph_A :
    [0x082, 0x083, 0x084, 0x085, 0x086].map (fun a => State.reset.mem.read a) = [0xF0, 0x90, 0xF0, 0x90, 0x90] := by decide

/-- VM9 and VM12. -/
theorem test_store_bcd :
    (after 0xF033 (setIndex 0x300 (regs [(0, 0xFF)]))).map (fun t => [0x300, 0x301, 0x302].map (fun a => t.mem.read a)) = some [2, 5, 5] ∧
    (after 0xF033 (setIndex 0xFFE (regs [(0, 0x7B)]))).map (fun t => (t.fault, t.mem.read 0xFFE, t.mem.read 0xFFF)) =
      some (some ⟨.dataOutOfRange, 0x200, 0xF033, 0x1000⟩, 0, 0) := by decide

/-- VM13 and VM16. -/
theorem test_store_registers :
    (after 0xF255 (setIndex 0x300 (regs [(0, 0x11), (1, 0x22), (2, 0x33), (3, 0x44)]))).map
      (fun t => ([0x300, 0x301, 0x302, 0x303].map (fun a => t.mem.read a), t.index)) = some ([0x11, 0x22, 0x33, 0], 0x300) ∧
    (after 0xFF55 (setIndex 0xFF1 (regs [(15, 0xEE)]))).map (·.fault) = some (some ⟨.dataOutOfRange, 0x200, 0xFF55, 0x1000⟩) := by decide

/-- VM17 and VM19. -/
theorem test_load_registers :
    (after 0xF265 (bytes [(0x300, 1), (0x301, 5), (0x302, 7), (0x303, 8)] (setIndex 0x300 (regs [(3, 0x99)])))).map
      (fun t => (readReg t 0, readReg t 1, readReg t 2, readReg t 3, t.index)) = some (1, 5, 7, 0x99, 0x300) ∧
    (after 0xF165 (bytes [(0xFFF, 0x12)] (setIndex 0xFFF State.reset))).map (fun t => (t.fault, readReg t 0)) =
      some (some ⟨.dataOutOfRange, 0x200, 0xF165, 0x1000⟩, 0) := by decide

/-- VG1. -/
theorem test_clear_screen :
    (after 0x00E0 (setFb (1 ||| BitVec.twoPow 2048 5 ||| BitVec.twoPow 2048 2047) (regs [(15, 1)]))).map
      (fun t => (t.fb, readReg t 15)) = some (0, 1) := by decide +kernel

/-- VG5 (no modulo: the row spills into the next) and VG4 (the flag is the or over pixels). -/
theorem test_draw_sprite :
    (after 0xD011 (bytes [(0x300, 0xFF)] (setIndex 0x300 (regs [(0, 60), (1, 0)])))).map (fun t => (t.fb, readReg t 15)) =
      some (BitVec.ofNat 2048 (0xFF * 2 ^ 60), 0) ∧
    (after 0xD011 (bytes [(0x300, 0xC0)] (setIndex 0x300 (setFb 2 State.reset)))).map (fun t => (t.fb, readReg t 15)) = some (1, 1) := by
  decide +kernel

/-- VG8, VG14, VG15. -/
theorem test_draw_sprite_faults :
    (after 0xD012 (bytes [(0x300, 0xFF), (0x301, 0x80)] (setIndex 0x300 (regs [(1, 31)])))).map (fun t => (t.fault, t.fb)) =
      some (some ⟨.displayOutOfRange, 0x200, 0xD012, 0x800⟩, 0) ∧
    (after 0xD012 (bytes [(0xFFF, 0x80)] (setIndex 0xFFF State.reset))).map (fun t => (t.fault, t.fb)) =
      some (some ⟨.dataOutOfRange, 0x200, 0xD012, 0x1000⟩, 0) ∧
    (after 0xD012 (bytes [(0xFFF, 0x80)] (setIndex 0xFFF (regs [(1, 32)])))).map (·.fault) =
      some (some ⟨.displayOutOfRange, 0x200, 0xD012, 0x800⟩) := by decide +kernel

/-- VK1 to VK4. -/
theorem test_key_skips :
    (after 0xE29E (setKey 0x0080 (regs [(2, 7)]))).map (·.pc) = some 0x204 ∧ (after 0xE29E (regs [(2, 7)])).map (·.pc) = some 0x202 ∧
    (after 0xE2A1 (setKey 0x0080 (regs [(2, 7)]))).map (·.pc) = some 0x202 ∧ (after 0xE2A1 (regs [(2, 7)])).map (·.pc) = some 0x204 := by
  decide

/-- VK6 and VK7. -/
theorem test_key_skip_faults :
    (after 0xE29E (regs [(2, 0x10)])).map (·.fault) = some (some ⟨.keyIndexInvalid, 0x200, 0xE29E, 0x10⟩) ∧
    (after 0xE2A1 (regs [(2, 0xFF)])).map (·.fault) = some (some ⟨.keyIndexInvalid, 0x200, 0xE2A1, 0xFF⟩) := by decide

/-- VK8 and VK9. -/
theorem test_wait_for_key :
    (after 0xF50A { State.reset with dt := 2, st := 1 }).map (fun t => (t.pc, readReg t 5, t.dt, t.st, t.opcode)) =
      some (0x200, 0, 1, 0, 0xF50A) ∧
    (after 0xF50A { State.reset with dt := 2, key := 0x0208 }).map (fun t => (t.pc, readReg t 5, t.dt)) = some (0x202, 3, 1) := by decide

/-- VK12. -/
theorem test_get_delay_timer :
    (after 0xF307 { State.reset with dt := 5 }).map (fun t => (readReg t 3, t.dt)) = some (5, 4) := by decide

/-- VK14 and VK16. -/
theorem test_set_delay_timer :
    (after 0xF015 (regs [(0, 3)])).map (·.dt) = some 2 ∧ (after 0xF015 { State.reset with dt := 9 }).map (·.dt) = some 0 := by decide

/-- VK18 and VK19. -/
theorem test_set_sound_timer :
    (after 0xF118 (regs [(1, 0x10)])).map (fun t => (t.st, t.dt)) = some (0x0F, 0) ∧
    (after 0xF118 (setSt 7 (regs [(1, 1)]))).map (·.st) = some 0 := by decide

/-- T1 and T2. -/
theorem test_load_image :
    (loadImage (some [0x12, 0x34, 0x56]) State.reset).1 = bytes [(0x200, 0x12), (0x201, 0x34), (0x202, 0x56)] State.reset ∧
    loadImage (some []) State.reset = (State.reset, .error .unreadable) := ⟨by decide +kernel, rfl⟩

/-! ## Witnesses: values that meet the hypotheses of each statement, clause by clause, at the edges of a range.
For an instruction's encoding clause, a word of its row with its fields at their largest where the row has fields. -/

/-- Both sides of R100's equivalence are met. -/
theorem test_witness_UnrecognizedWordsAreExactlyThese :
    rejected 0xF0FF = some .unrecognizedFamilyF ∧ rejected 0x00EE = none ∧
    unrecognizedWord 0xF0FF ∧ ¬ unrecognizedWord 0x00EE := by
  unfold unrecognizedWord; decide

theorem test_witness_DecodeFollowsOpcodeTable :
    decode 0x8F1E = .ok (.shiftLeft 15) ∧
    opcodeTable.any (fun row => decide (0x8F1E &&& row.mask = row.pattern ∧ row.mnemonic = "shift-left")) = true ∧
    opcodeTable.any (fun row => decide (¬ 0x8F1E &&& row.mask = row.pattern)) = true := by decide

/-- An instruction at 0xFFE that completes, and one that faults. -/
theorem test_witness_StepRunsDecodedInstruction :
    (let s := State.withFetchWord { State.reset with pc := 0xFFE } 16 0x1234
     s.fault = none ∧ s.pc.toNat ≤ 0xFFE ∧ (0x1234 : Word).toNat = wordAtPc s ∧ decode 0x1234 = .ok (.jump 0x234)) ∧
    (let s := State.reset.withFetchWord 16 0x00EE
     s.fault = none ∧ s.pc.toNat ≤ 0xFFE ∧ (0x00EE : Word).toNat = wordAtPc s ∧ decode 0x00EE = .ok .ret ∧
     (after 0x00EE s).map (fun t => t.fault.isSome) = some true) := by decide

/-- A state with a fault latched, as VS10. -/
theorem test_witness_HaltedMachineNeverChanges :
    let f : FaultRecord := ⟨.stackUnderflow, 0x200, 0x00EE, 0⟩
    let s : State := { State.reset with fault := some f, dt := 5 }
    s.fault = some f ∧ act (.load (some [0x12])) s = .next (setMem [(0x200, 0x12)] s) ∧
    act (.keys 1) s = .next (setKey 1 s) ∧ act .reset s = .next State.reset := ⟨rfl, rfl, rfl, rfl⟩

theorem test_witness_FetchBeyondMemoryFaults :
    let s : State := { State.reset with pc := 0xFFF }
    s.fault = none ∧ 0xFFE < s.pc.toNat := by decide

theorem test_witness_UnrecognizedWordIsReportedNoOp :
    let s := State.withFetchWord { State.reset with pc := 0xFFE, dt := 1 } 16 0x8128
    s.fault = none ∧ s.pc.toNat ≤ 0xFFE ∧ (0x8128 : Word).toNat = wordAtPc s ∧ unrecognizedWord 0x8128 := by
  unfold unrecognizedWord; decide

/-- A fetch fault, and a fault of an instruction. -/
theorem test_witness_FaultingStepIsPrecise :
    (let s : State := { State.reset with pc := 0xFFF }
     s.fault = none ∧ step s = .next (setFault (some ⟨.fetchOutOfRange, 0xFFF, 0, 0xFFF⟩) s)) ∧
    (let s := State.withFetchWord (regs [(0, 16)]) 16 0xF029
     s.fault = none ∧ step s = .next (setFault (some ⟨.fontIndexInvalid, 0x200, 0xF029, 16⟩) s)) := ⟨⟨rfl, rfl⟩, rfl, rfl⟩

/-- A step that completes: one that sets `DT`, one that sets `ST`, one that sets neither; and one that faults. -/
theorem test_witness_TimersTickOnceAStep :
    (let s := State.withFetchWord (regs [(0, 1)]) 16 0xF015
     s.fault = none ∧ nextInstr s = some (.setDelayTimer 0) ∧ (after 0xF015 s).map (·.fault) = some none) ∧
    (let s := State.withFetchWord (regs [(1, 0xFF)]) 16 0xF118
     s.fault = none ∧ nextInstr s = some (.setSoundTimer 1) ∧ (after 0xF118 s).map (·.fault) = some none) ∧
    (let s := State.withFetchWord { State.reset with dt := 1, st := 0 } 16 0x1200
     s.fault = none ∧ nextInstr s = some (.jump 0x200) ∧ (after 0x1200 s).map (·.fault) = some none) ∧
    (after 0x00EE { State.reset with dt := 1 }).map (fun t => (t.fault.isSome, t.dt)) = some (true, 1) := by decide

/-- A flag writer and another instruction, neither with 15 as its destination; the flag writer does not fault. -/
theorem test_witness_FlagWrittenByExactlySix :
    (exec (.shiftLeft 14) State.reset = .next (writeReg 14 0 (writeReg 15 0 State.reset)) ∧
     (Instr.shiftLeft 14).namesDestination 15 = false ∧ (Instr.shiftLeft 14).writesFlag = true ∧
     State.reset.fault = none ∧ (writeReg 14 0 (writeReg 15 0 State.reset)).fault = none) ∧
    (exec (.addImmediate 14 0xFF) (regs [(15, 7)]) = .next (writeReg 14 0xFF (regs [(15, 7)])) ∧
     (Instr.addImmediate 14 0xFF).namesDestination 15 = false ∧ (Instr.addImmediate 14 0xFF).writesFlag = false) :=
  ⟨⟨rfl, rfl, rfl, rfl, rfl⟩, rfl, rfl, rfl⟩

/-- A call writes a stack entry, `sp` and `pc`, all of which it may. -/
theorem test_witness_PartsHaveTheirWriters :
    exec (.call 0x300) State.reset =
      .next (setPc 0x300 (setSp 1 (setStack (State.reset.stack.set 0 0x200) State.reset))) := rfl

/-- One state for each of the seven causes. -/
theorem test_witness_FaultCausesHaveTheirConditions :
    (step { State.reset with pc := 0xFFF } = .next { State.reset with pc := 0xFFF, fault := some ⟨.fetchOutOfRange, 0xFFF, 0, 0xFFF⟩ }) ∧
    (after 0xF033 { State.reset with index := 0xFFE }).map (fun t => t.fault.map (·.cause)) = some (some .dataOutOfRange) ∧
    (after 0x2200 { State.reset with sp := 16 }).map (fun t => t.fault.map (·.cause)) = some (some .stackOverflow) ∧
    (after 0x00EE State.reset).map (fun t => t.fault.map (·.cause)) = some (some .stackUnderflow) ∧
    (after 0xD011 (bytes [(0x300, 0x80)] (setIndex 0x300 (regs [(0, 0), (1, 32)])))).map (fun t => t.fault.map (·.cause)) =
      some (some .displayOutOfRange) ∧
    (after 0xF029 (regs [(0, 16)])).map (fun t => t.fault.map (·.cause)) = some (some .fontIndexInvalid) ∧
    (after 0xE09E (regs [(0, 16)])).map (fun t => t.fault.map (·.cause)) = some (some .keyIndexInvalid) :=
  ⟨rfl, by decide⟩

/-- A canonical memory, in a state from which a step stores a byte at 0xFFF. -/
theorem test_witness_StepKeepsMemoryCanonical :
    let s := State.withFetchWord (setIndex 0xFFF (regs [(0, 1)])) 16 0xF055
    MemoryCanonical s ∧ ∃ t : State, step s = .next t ∧ t.mem.read 0xFFF = 1 :=
  ⟨rfl, _, rfl, rfl⟩

/-- The largest `pc` the bounds allow, a full stack, and a step from 0xFFE that is a taken skip. -/
theorem test_witness_StepKeepsPcBounded :
    PcBounded { State.reset with pc := 0x10FE, sp := 16, stack := Vector.replicate 16 0x1000 } ∧
    PcBounded (State.withFetchWord { State.reset with pc := 0xFFE } 16 0x3000) ∧
    ∃ t : State, step (State.withFetchWord { State.reset with pc := 0xFFE } 16 0x3000) = .next t ∧ t.pc = 0x1002 := by
  refine ⟨?_, ?_, _, rfl, rfl⟩ <;> unfold PcBounded <;> decide

/-- A run of all four actions. -/
theorem test_witness_ReachablePcBounded :
    ∃ s : State, runActions [.reset, .load (some [0x1A, 0xBC]), .keys 1, .step] State.reset = .next s ∧ s.pc = 0xABC :=
  ⟨_, rfl, rfl⟩

/-- Reset itself, and the action from a state with everything changed. -/
theorem test_witness_ResetLeavesTheTableValues :
    act .reset (setDraws 3 { State.reset with pc := 0x300, sp := 4, fault := some ⟨.stackOverflow, 0x200, 0x2200, 16⟩ }) =
      .next (setDraws 3 State.reset) := rfl

/-- Images of 1 and of 3584 bytes. -/
theorem test_witness_LoadImageCopiesBytes :
    (1 ≤ [(0x12 : Byte)].length ∧ [(0x12 : Byte)].length ≤ 3584) ∧
    (1 ≤ (List.replicate 3584 (0xFF : Byte)).length ∧ (List.replicate 3584 (0xFF : Byte)).length ≤ 3584) := by
  rw [List.length_replicate]; decide

theorem test_witness_RejectedLoadChangesNothing : 3584 < (List.replicate 3585 (0xFF : Byte)).length := by
  rw [List.length_replicate]; decide

/-- Programs ended at the lowest and at the highest address; the second with both timers at 0 and the word in
`opcode`. -/
theorem test_witness_JumpToItselfOnlyTicks :
    ProgramEnded 0 (State.withFetchWord { State.reset with pc := 0, dt := 1, st := 255 } 16 0x1000) ∧
    (let s := State.withFetchWord { State.reset with pc := 0xFFE, opcode := 0x1FFE } 16 0x1FFE
     ProgramEnded 0xFFE s ∧ s.dt = 0 ∧ s.st = 0 ∧ s.opcode.toNat = 0x1000 + (0xFFE : Word).toNat) := by
  unfold ProgramEnded; decide

/-- R300: a jump elsewhere, a jump to itself at 0xFFF (half of it beyond memory), and a latched fault are no end. -/
theorem test_program_not_ended :
    ¬ ProgramEnded 0x200 (State.reset.withFetchWord 16 0x1202) ∧
    ¬ ProgramEnded 0xFFF (bytes [(0xFFF, 0x1F)] { State.reset with pc := 0xFFF }) ∧
    ¬ ProgramEnded 0x200 (setFault (some ⟨.stackUnderflow, 0x200, 0x00EE, 0⟩) (State.reset.withFetchWord 16 0x1200)) := by
  unfold ProgramEnded; decide

/-- An address beyond memory and the highest address in it. -/
theorem test_witness_MemoryReadsLatestWrite :
    memWrite [] 0x1000 1 = .error ⟨.dataOutOfRange, 0x1000⟩ ∧ memWrite [] 0xFFF 1 = .ok [(0xFFF, 1)] ∧
    0xFFF < 0x1000 ∧ 0xFFF ≤ 0xFFF := by decide

/-- Two registers stored in the last two bytes of memory. -/
theorem test_witness_StoresReachTheNextFetch :
    let s := setIndex 0xFFE (regs [(0, 0x6A), (1, 0x7F)])
    1 ≤ (1 : Reg).val ∧ s.index.toNat + (1 : Reg).val ≤ 0xFFF ∧
    ∃ t : State, exec (.storeRegisters 1) s = .next t ∧ fetch (setPc s.index t) = .ok 0x6A7F :=
  ⟨by decide, by decide, _, rfl, rfl⟩

/-- A step that executes neither a keypad instruction nor random-and. -/
theorem test_witness_InputsReachOnlyTheirInstructions :
    let s := State.withFetchWord State.reset 16 0x1234
    nextInstr s = some (.jump 0x234) ∧ (Instr.jump 0x234).readsKeypad = false ∧ (Instr.jump 0x234).readsRandom = false ∧
    ∃ t : State, step s = .next t ∧ t.pc = 0x234 := ⟨by decide, rfl, rfl, _, rfl, rfl⟩

/-- One entry, sixteen entries, none. -/
theorem test_witness_ReturnPops :
    (0x0FEE &&& 0xF0FF = (0x00EE : Word) ∧ decode 0x0FEE = .ok .ret) ∧
    ({ State.reset with sp := 1 } : State).sp.val = (0 : Fin 16).val + 1 ∧
    ({ State.reset with sp := 16 } : State).sp.val = (15 : Fin 16).val + 1 ∧ State.reset.sp.val = 0 := by decide

theorem test_witness_JumpSetsPc :
    0x1FFF &&& 0xF000 = (0x1000 : Word) ∧ (0xFFF : Addr12).toNat = bitsOf 0x1FFF 11 0 ∧ decode 0x1FFF = .ok (.jump 0xFFF) := by decide

/-- The first call, the sixteenth, the seventeenth. -/
theorem test_witness_CallPushes :
    (0x2FFF &&& 0xF000 = (0x2000 : Word) ∧ (0xFFF : Addr12).toNat = bitsOf 0x2FFF 11 0 ∧ decode 0x2FFF = .ok (.call 0xFFF)) ∧
    State.reset.sp.val = (0 : Fin 16).val ∧ ({ State.reset with sp := 15 } : State).sp.val = (15 : Fin 16).val ∧
    ({ State.reset with sp := 16 } : State).sp.val = 16 := by decide

theorem test_witness_SkipIfEqualImmediateTests :
    0x3FA5 &&& 0xF000 = (0x3000 : Word) ∧ (15 : Reg).val = bitsOf 0x3FA5 11 8 ∧ (0xA5 : Byte).toNat = bitsOf 0x3FA5 7 0 ∧
    decode 0x3FA5 = .ok (.skipIfEqualImmediate 15 0xA5) := by decide

theorem test_witness_SkipIfNotEqualImmediateTests :
    0x4FA5 &&& 0xF000 = (0x4000 : Word) ∧ (15 : Reg).val = bitsOf 0x4FA5 11 8 ∧ (0xA5 : Byte).toNat = bitsOf 0x4FA5 7 0 ∧
    decode 0x4FA5 = .ok (.skipIfNotEqualImmediate 15 0xA5) := by decide

theorem test_witness_SkipIfRegistersEqualTests :
    0x5FEF &&& 0xF000 = (0x5000 : Word) ∧ (15 : Reg).val = bitsOf 0x5FEF 11 8 ∧ (14 : Reg).val = bitsOf 0x5FEF 7 4 ∧
    decode 0x5FEF = .ok (.skipIfRegistersEqual 15 14) := by decide

theorem test_witness_SkipIfRegistersNotEqualTests :
    0x9FEF &&& 0xF000 = (0x9000 : Word) ∧ (15 : Reg).val = bitsOf 0x9FEF 11 8 ∧ (14 : Reg).val = bitsOf 0x9FEF 7 4 ∧
    decode 0x9FEF = .ok (.skipIfRegistersNotEqual 15 14) := by decide

theorem test_witness_JumpWithOffsetAddsRegisterZero :
    0xB800 &&& 0xF000 = (0xB000 : Word) ∧ (0x800 : Addr12).toNat = bitsOf 0xB800 11 0 ∧ decode 0xB800 = .ok (.jumpWithOffset 0x800) := by
  decide

theorem test_witness_SetImmediateWrites :
    0x6FA5 &&& 0xF000 = (0x6000 : Word) ∧ (15 : Reg).val = bitsOf 0x6FA5 11 8 ∧ (0xA5 : Byte).toNat = bitsOf 0x6FA5 7 0 ∧
    decode 0x6FA5 = .ok (.setImmediate 15 0xA5) := by decide

theorem test_witness_AddImmediateWraps :
    0x7FA5 &&& 0xF000 = (0x7000 : Word) ∧ (15 : Reg).val = bitsOf 0x7FA5 11 8 ∧ (0xA5 : Byte).toNat = bitsOf 0x7FA5 7 0 ∧
    decode 0x7FA5 = .ok (.addImmediate 15 0xA5) := by decide

theorem test_witness_AssignCopies :
    0x8FE0 &&& 0xF00F = (0x8000 : Word) ∧ (15 : Reg).val = bitsOf 0x8FE0 11 8 ∧ (14 : Reg).val = bitsOf 0x8FE0 7 4 ∧
    decode 0x8FE0 = .ok (.assign 15 14) := by decide

theorem test_witness_LogicCombinesBitwise :
    (15 : Reg).val = bitsOf 0x8FE1 11 8 ∧ (14 : Reg).val = bitsOf 0x8FE1 7 4 ∧
    (0x8FE1 &&& 0xF00F = (0x8001 : Word) ∧ decode 0x8FE1 = .ok (.or 15 14)) ∧
    (0x8FE2 &&& 0xF00F = (0x8002 : Word) ∧ decode 0x8FE2 = .ok (.and 15 14)) ∧
    (0x8FE3 &&& 0xF00F = (0x8003 : Word) ∧ decode 0x8FE3 = .ok (.xor 15 14)) := by decide

/-- The encoding, and a destination that is not the flag register. -/
theorem test_witness_AddSetsCarry :
    (0x8FE4 &&& 0xF00F = (0x8004 : Word) ∧ (15 : Reg).val = bitsOf 0x8FE4 11 8 ∧ (14 : Reg).val = bitsOf 0x8FE4 7 4 ∧
     decode 0x8FE4 = .ok (.add 15 14)) ∧ (14 : Reg) ≠ 15 := by decide

theorem test_witness_SubtractSetsNoBorrow :
    (0x8FE5 &&& 0xF00F = (0x8005 : Word) ∧ (15 : Reg).val = bitsOf 0x8FE5 11 8 ∧ (14 : Reg).val = bitsOf 0x8FE5 7 4 ∧
     decode 0x8FE5 = .ok (.subtract 15 14)) ∧
    (1 = (if (readReg (regs [(0, 7), (1, 7)]) 0).toNat ≥ (readReg (regs [(0, 7), (1, 7)]) 1).toNat then 1 else 0)) ∧
    (14 : Reg) ≠ 15 := by decide

theorem test_witness_ShiftRightReadsY :
    (0x8FE6 &&& 0xF00F = (0x8006 : Word) ∧ (15 : Reg).val = bitsOf 0x8FE6 11 8 ∧ (14 : Reg).val = bitsOf 0x8FE6 7 4 ∧
     decode 0x8FE6 = .ok (.shiftRight 15 14)) ∧ 1 = (readReg (regs [(14, 0xFF)]) 14).toNat % 2 ∧ (14 : Reg) ≠ 15 := by decide

theorem test_witness_SubtractReverseSetsStrictFlag :
    (0x8FE7 &&& 0xF00F = (0x8007 : Word) ∧ (15 : Reg).val = bitsOf 0x8FE7 11 8 ∧ (14 : Reg).val = bitsOf 0x8FE7 7 4 ∧
     decode 0x8FE7 = .ok (.subtractReverse 15 14)) ∧
    (0 = (if (readReg (regs [(0, 7), (1, 7)]) 1).toNat > (readReg (regs [(0, 7), (1, 7)]) 0).toNat then 1 else 0)) ∧
    (14 : Reg) ≠ 15 := by decide

theorem test_witness_ShiftLeftReadsX :
    (0x8FEE &&& 0xF00F = (0x800E : Word) ∧ (15 : Reg).val = bitsOf 0x8FEE 11 8 ∧ decode 0x8FEE = .ok (.shiftLeft 15)) ∧
    1 = (readReg (regs [(14, 0x80)]) 14).toNat / 128 ∧ (14 : Reg) ≠ 15 := by decide

theorem test_witness_RandomAndMasksTheByte :
    0xCFA5 &&& 0xF000 = (0xC000 : Word) ∧ (15 : Reg).val = bitsOf 0xCFA5 11 8 ∧ (0xA5 : Byte).toNat = bitsOf 0xCFA5 7 0 ∧
    decode 0xCFA5 = .ok (.randomAnd 15 0xA5) := by decide

theorem test_witness_SetIndexWrites :
    0xA800 &&& 0xF000 = (0xA000 : Word) ∧ (0x800 : Addr12).toNat = bitsOf 0xA800 11 0 ∧ decode 0xA800 = .ok (.setIndex 0x800) := by
  decide

theorem test_witness_AddToIndexWraps :
    0xFF1E &&& 0xF0FF = (0xF01E : Word) ∧ (15 : Reg).val = bitsOf 0xFF1E 11 8 ∧ decode 0xFF1E = .ok (.addToIndex 15) := by decide

/-- The largest digit, and the smallest value that is none. -/
theorem test_witness_LoadFontAddressChecksDigit :
    (0xFF29 &&& 0xF0FF = (0xF029 : Word) ∧ (15 : Reg).val = bitsOf 0xFF29 11 8 ∧ decode 0xFF29 = .ok (.loadFontAddress 15)) ∧
    (readReg (regs [(0, 15)]) 0).toNat ≤ 15 ∧ 15 < (readReg (regs [(0, 16)]) 0).toNat := by decide

/-- `I` at its highest, and the three places where the first address beyond memory can fall. -/
theorem test_witness_StoreBcdWritesDigits :
    (0xFF33 &&& 0xF0FF = (0xF033 : Word) ∧ (15 : Reg).val = bitsOf 0xFF33 11 8 ∧ decode 0xFF33 = .ok (.storeBCD 15)) ∧
    (setIndex 0xFFD State.reset).index.toNat + 2 ≤ 0xFFF ∧
    (let s := setIndex 0xFFE State.reset
     2 < 3 ∧ 0xFFF < s.index.toNat + 2 ∧ ∀ j : Nat, j < 2 → s.index.toNat + j ≤ 0xFFF) ∧
    (let s := setIndex 0xFFF State.reset
     1 < 3 ∧ 0xFFF < s.index.toNat + 1 ∧ ∀ j : Nat, j < 1 → s.index.toNat + j ≤ 0xFFF) ∧
    (let s := setIndex 0x1000 State.reset
     0 < 3 ∧ 0xFFF < s.index.toNat + 0 ∧ ∀ j : Nat, j < 0 → s.index.toNat + j ≤ 0xFFF) := by decide

/-- All sixteen registers at the end of memory, one address further, and `X = 0` beyond memory. -/
theorem test_witness_StoreRegistersWritesRange :
    (0xFF55 &&& 0xF0FF = (0xF055 : Word) ∧ (15 : Reg).val = bitsOf 0xFF55 11 8 ∧ decode 0xFF55 = .ok (.storeRegisters 15)) ∧
    (setIndex 0xFF0 State.reset).index.toNat + (15 : Reg).val ≤ 0xFFF ∧ (15 : Reg) ≤ 15 ∧
    (let s := setIndex 0xFF1 State.reset
     15 ≤ (15 : Reg).val ∧ 0xFFF < s.index.toNat + 15 ∧ ∀ j : Nat, j < 15 → s.index.toNat + j ≤ 0xFFF) ∧
    (let s := setIndex 0x1000 State.reset
     0 ≤ (0 : Reg).val ∧ 0xFFF < s.index.toNat + 0 ∧ ∀ j : Nat, j < 0 → s.index.toNat + j ≤ 0xFFF) := by decide

/-- As for store-registers. -/
theorem test_witness_LoadRegistersReadsRange :
    (0xFF65 &&& 0xF0FF = (0xF065 : Word) ∧ (15 : Reg).val = bitsOf 0xFF65 11 8 ∧ decode 0xFF65 = .ok (.loadRegisters 15)) ∧
    (setIndex 0xFF0 State.reset).index.toNat + (15 : Reg).val ≤ 0xFFF ∧ (15 : Reg) ≤ 15 ∧
    (let s := setIndex 0xFF1 State.reset
     15 ≤ (15 : Reg).val ∧ 0xFFF < s.index.toNat + 15 ∧ ∀ j : Nat, j < 15 → s.index.toNat + j ≤ 0xFFF) ∧
    (let s := setIndex 0x1000 State.reset
     0 ≤ (0 : Reg).val ∧ 0xFFF < s.index.toNat + 0 ∧ ∀ j : Nat, j < 0 → s.index.toNat + j ≤ 0xFFF) := by decide

theorem test_witness_ClearScreenClears :
    0x0FE0 &&& 0xF0FF = (0x00E0 : Word) ∧ decode 0x0FE0 = .ok .clearScreen := by decide

/-- VG10, a sprite on the last four pixels, its byte moved to the last address of memory: no row is beyond memory
and no 1 bit beyond the display, pixel 2047 is covered, and it was on; and the same with the display off. -/
theorem test_witness_DrawSpriteXorsThePixels :
    (0xDFEF &&& 0xF000 = (0xD000 : Word) ∧ (15 : Reg).val = bitsOf 0xDFEF 11 8 ∧ (14 : Reg).val = bitsOf 0xDFEF 7 4 ∧
     (15 : Nibble).toNat = bitsOf 0xDFEF 3 0 ∧ decode 0xDFEF = .ok (.drawSprite 15 14 15)) ∧
    (let s := bytes [(0xFFF, 0xF0)] (setIndex 0xFFF (regs [(0, 60), (1, 31)]))
     (∀ row : Nat, row < (1 : Nibble).toNat → ¬ rowBeyondMemory s row ∧ ∀ col : Nat, col < 8 → ¬ bitBeyondDisplay s 0 1 row col) ∧
     (∃ k : Nat, spriteCovers s 0 1 1 k ∧ pixel (BitVec.twoPow 2048 2047) k = true) ∧
     ¬ ∃ k : Nat, spriteCovers s 0 1 1 k ∧ pixel s.fb k = true) := by
  refine ⟨by decide, ?_, ⟨2047, ⟨0, 3, ?_⟩, ?_⟩, ?_⟩
  · unfold rowBeyondMemory bitBeyondDisplay spriteBitAt spriteIndex; decide +kernel
  · unfold spriteBitAt spriteIndex; decide +kernel
  · simp [pixel]
  · rintro ⟨k, -, h⟩
    rw [show (bytes [(0xFFF, 0xF0)] (setIndex 0xFFF (regs [(0, 60), (1, 31)]))).fb = 0 from rfl] at h
    simp [pixel] at h

/-- VG14, the second row beyond memory; VG11, column 4 of the only row beyond the display; and VG15, where both
could occur and the display comes first. -/
theorem test_witness_DrawSpriteFaultsInLoopOrder :
    (let s := bytes [(0xFFF, 0x80)] (setIndex 0xFFF State.reset)
     1 < (2 : Nibble).toNat ∧ rowsBeforeAreFine s 0 1 1 ∧ rowBeyondMemory s 1) ∧
    (let s := bytes [(0x300, 0xF8)] (setIndex 0x300 (regs [(0, 60), (1, 31)]))
     0 < (1 : Nibble).toNat ∧ rowsBeforeAreFine s 0 1 0 ∧ ¬ rowBeyondMemory s 0 ∧ 4 < 8 ∧
     (∀ c : Nat, c < 4 → ¬ bitBeyondDisplay s 0 1 0 c) ∧ bitBeyondDisplay s 0 1 0 4) ∧
    (let s := bytes [(0xFFF, 0x80)] (setIndex 0xFFF (regs [(1, 32)]))
     0 < (2 : Nibble).toNat ∧ rowsBeforeAreFine s 0 1 0 ∧ ¬ rowBeyondMemory s 0 ∧ 0 < 8 ∧
     (∀ c : Nat, c < 0 → ¬ bitBeyondDisplay s 0 1 0 c) ∧ bitBeyondDisplay s 0 1 0 0) := by
  unfold rowsBeforeAreFine rowBeyondMemory bitBeyondDisplay spriteBitAt spriteIndex; decide +kernel

theorem test_witness_SkipIfKeyPressedTests :
    (0xEF9E &&& 0xF0FF = (0xE09E : Word) ∧ (15 : Reg).val = bitsOf 0xEF9E 11 8 ∧ decode 0xEF9E = .ok (.skipIfKeyPressed 15)) ∧
    (readReg (regs [(0, 15)]) 0).toNat ≤ 15 ∧ 15 < (readReg (regs [(0, 16)]) 0).toNat := by decide

theorem test_witness_SkipIfKeyNotPressedTests :
    (0xEFA1 &&& 0xF0FF = (0xE0A1 : Word) ∧ (15 : Reg).val = bitsOf 0xEFA1 11 8 ∧ decode 0xEFA1 = .ok (.skipIfKeyNotPressed 15)) ∧
    (readReg (regs [(0, 15)]) 0).toNat ≤ 15 ∧ 15 < (readReg (regs [(0, 16)]) 0).toNat := by decide

/-- No key down; key 0 the lowest; key 15 the lowest. -/
theorem test_witness_WaitForKeyReplaysOrTakesLowest :
    (0xFF0A &&& 0xF0FF = (0xF00A : Word) ∧ (15 : Reg).val = bitsOf 0xFF0A 11 8 ∧ decode 0xFF0A = .ok (.waitForKey 15)) ∧
    (∀ k : Nat, k < 16 → State.reset.key.getLsbD k = false) ∧
    (let s := setKey 0xFFFF State.reset
     0 < 16 ∧ s.key.getLsbD 0 = true ∧ ∀ j : Nat, j < 0 → s.key.getLsbD j = false) ∧
    (let s := setKey 0x8000 State.reset
     15 < 16 ∧ s.key.getLsbD 15 = true ∧ ∀ j : Nat, j < 15 → s.key.getLsbD j = false) := by decide

theorem test_witness_GetDelayTimerReads :
    (0xFF07 &&& 0xF0FF = (0xF007 : Word) ∧ (15 : Reg).val = bitsOf 0xFF07 11 8 ∧ decode 0xFF07 = .ok (.getDelayTimer 15)) ∧
    (State.reset.withFetchWord 16 0xFF07).fault = none ∧
    nextInstr (State.reset.withFetchWord 16 0xFF07) = some (.getDelayTimer 15) := by decide

theorem test_witness_SetDelayTimerWritesThenTicks :
    (0xFF15 &&& 0xF0FF = (0xF015 : Word) ∧ (15 : Reg).val = bitsOf 0xFF15 11 8 ∧ decode 0xFF15 = .ok (.setDelayTimer 15)) ∧
    (State.reset.withFetchWord 16 0xFF15).fault = none ∧
    nextInstr (State.reset.withFetchWord 16 0xFF15) = some (.setDelayTimer 15) := by decide

theorem test_witness_SetSoundTimerWritesThenTicks :
    (0xFF18 &&& 0xF0FF = (0xF018 : Word) ∧ (15 : Reg).val = bitsOf 0xFF18 11 8 ∧ decode 0xFF18 = .ok (.setSoundTimer 15)) ∧
    (State.reset.withFetchWord 16 0xFF18).fault = none ∧
    nextInstr (State.reset.withFetchWord 16 0xFF18) = some (.setSoundTimer 15) := by decide

end Sys2Proof.Tests
end

section
/-! The loader's refusals (R71): which image lengths it accepts, and the answer to each source it rejects. -/

namespace Sys2Proof.Machine

theorem imageLengthOk_iff {len : Nat} : imageLengthOk len = true ↔ 1 ≤ len ∧ len ≤ 3584 := decide_eq_true_iff

@[simp] theorem loadImage_none (s : State) : loadImage none s = (s, .error .unreadable) := rfl

@[simp] theorem loadImage_nil (s : State) : loadImage (some []) s = (s, .error .unreadable) := rfl

/-- Both tests of the loader turn a long image away: it does not fit, and it is not the empty one. -/
theorem loadImage_of_too_long {bytes : List Byte} (h : 3584 < bytes.length) (s : State) :
    loadImage (some bytes) s = (s, .error .tooLarge) := by
  have notOk : ¬ imageLengthOk bytes.length = true := by rw [imageLengthOk_iff]; omega
  have notEmpty : ¬ bytes.length = 0 := by omega
  simp only [loadImage, if_neg notOk, if_neg notEmpty]

/-- Settles O21, one loader equation for each of R71's three failures. -/
theorem rejectedLoadChangesNothing : Obligations.RejectedLoadChangesNothing := fun s =>
  ⟨loadImage_none s, ⟨.unreadable, loadImage_nil s⟩, fun _ h => loadImage_of_too_long h s⟩

end Sys2Proof.Machine
end

section
/-! The unrecognized word (R100, R125): decode rejects it, and its step is fetch, advance and tick alone. -/

namespace Sys2Proof.Machine

/-! ## Unrecognized words (R95 to R98, R100) -/

theorem decodeFamily0_error {w : Word} (h : bitsOf w 7 0 ∉ [0xE0, 0xEE]) :
    decodeFamily0 w = .error .unrecognizedFamily0 := by
  simp only [List.mem_cons, List.not_mem_nil, or_false, not_or] at h
  simp [decodeFamily0, ← BitVec.toNat_inj, fieldNN_toNat, h]

theorem decodeFamily8_error {w : Word} (h : bitsOf w 3 0 ∈ [0x8, 0x9, 0xA, 0xB, 0xC, 0xD, 0xF]) :
    decodeFamily8 w = .error .unrecognizedFamily8 := by
  simp only [List.mem_cons, List.not_mem_nil, or_false] at h
  rcases h with h | h | h | h | h | h | h <;> simp [decodeFamily8, ← BitVec.toNat_inj, fieldN_toNat, h]

theorem decodeFamilyE_error {w : Word} (h : bitsOf w 7 0 ∉ [0x9E, 0xA1]) :
    decodeFamilyE w = .error .unrecognizedFamilyE := by
  simp only [List.mem_cons, List.not_mem_nil, or_false, not_or] at h
  simp [decodeFamilyE, ← BitVec.toNat_inj, fieldNN_toNat, h]

theorem decodeFamilyF_error {w : Word}
    (h : bitsOf w 7 0 ∉ [0x07, 0x0A, 0x15, 0x18, 0x1E, 0x29, 0x33, 0x55, 0x65]) :
    decodeFamilyF w = .error .unrecognizedFamilyF := by
  simp only [List.mem_cons, List.not_mem_nil, or_false, not_or] at h
  simp [decodeFamilyF, ← BitVec.toNat_inj, fieldNN_toNat, h]

/-- Every word of R100's list is rejected by decode. -/
theorem decode_unrecognized {w : Word} (h : unrecognizedWord w) : ∃ r, decode w = .error r := by
  rcases h with ⟨hf, h⟩ | ⟨hf, h⟩ | ⟨hf, h⟩ | ⟨hf, h⟩
  · exact ⟨_, by simpa [decode, fieldF_of (k := 0x0) hf] using decodeFamily0_error h⟩
  · exact ⟨_, by simpa [decode, fieldF_of (k := 0x8) hf] using decodeFamily8_error h⟩
  · exact ⟨_, by simpa [decode, fieldF_of (k := 0xE) hf] using decodeFamilyE_error h⟩
  · exact ⟨_, by simpa [decode, fieldF_of (k := 0xF) hf] using decodeFamilyF_error h⟩

/-! ## The step on an unrecognized word (R125) -/

/-- Fetch reads the word the bytes at `pc` spell. -/
theorem fetch_of_wordAtPc {s : State} {w : Word} (hpc : s.pc.toNat ≤ 0xFFE) (hw : w.toNat = wordAtPc s) :
    fetch s = .ok w := by
  obtain ⟨v, hfetch, hv⟩ := fetch_ok hpc
  rwa [BitVec.eq_of_toNat_eq (hw.trans hv.symm)]

theorem event_of_decode_error {s : State} {w : Word} {r : Reject} (hs : s.fault = none) (hfetch : fetch s = .ok w)
    (hd : decode w = .error r) : event s = some ⟨w, s.pc⟩ := by
  simp [event, hs, hfetch, hd]

theorem step_of_decode_error {s : State} {w : Word} {r : Reject} (hs : s.fault = none) (hfetch : fetch s = .ok w)
    (hd : decode w = .error r) : step s = .next (tick (advance w s)) := by
  apply step_done
  simp [frontEnd, hs, hfetch, hd, retire_ok]

theorem advance_pc_toNat {s : State} (w : Word) (hpc : s.pc.toNat ≤ 0xFFE) :
    (advance w s).pc.toNat = s.pc.toNat + 2 := by
  change (s.pc + 2).toNat = _
  bv_omega

/-- Advance and tick write four parts and no other (R122, R123, R127). -/
theorem tick_advance_frame (w : Word) (s : State) :
    Unchanged (fun p => p = .pc ∨ p = .opcode ∨ p = .dt ∨ p = .st) s (tick (advance w s)) := by
  intro p hp
  cases p with
  | pc | opcode | dt | st => simp at hp
  | _ => rfl

/-- Settles O8: decode rejects the word, so the step has no execute stage. -/
theorem unrecognizedWordIsReportedNoOp : Obligations.UnrecognizedWordIsReportedNoOp := by
  intro s w hs hpc hw hun
  have hfetch := fetch_of_wordAtPc hpc hw
  obtain ⟨r, hd⟩ := decode_unrecognized hun
  exact ⟨event_of_decode_error hs hfetch hd, _, step_of_decode_error hs hfetch hd, rfl, advance_pc_toNat w hpc,
    tickTimer_toNat s.dt, tickTimer_toNat s.st, tick_advance_frame w s⟩

end Sys2Proof.Machine
end

section
/-! The timers (R126, R127): what each instruction leaves in them, and that a step without a fault ticks each once. -/

namespace Sys2Proof.Machine

/-! ## What the operations of an instruction do to the timers -/

@[simp] theorem skipIf_dt (c : Bool) (s : State) : (skipIf c s).dt = s.dt := by cases c <;> rfl
@[simp] theorem skipIf_st (c : Bool) (s : State) : (skipIf c s).st = s.st := by cases c <;> rfl

@[simp] theorem writeRegsFrom_dt (k : Nat) (bs : List Byte) (s : State) : (writeRegsFrom k bs s).dt = s.dt := by
  obtain ⟨v, hv⟩ := writeRegsFrom_frame bs k s
  rw [hv, setRegs_dt]

@[simp] theorem writeRegsFrom_st (k : Nat) (bs : List Byte) (s : State) : (writeRegsFrom k bs s).st = s.st := by
  obtain ⟨v, hv⟩ := writeRegsFrom_frame bs k s
  rw [hv, setRegs_st]

theorem push_timers {v : Word} {s t : State} (h : push v s = .ok t) : t.dt = s.dt ∧ t.st = s.st := by
  rcases push_cases v s with ⟨_, hp⟩ | ⟨_, hp⟩ <;> cases hp.symm.trans h
  exact ⟨rfl, rfl⟩

theorem pop_timers {v : Word} {s t : State} (h : pop s = .ok (v, t)) : t.dt = s.dt ∧ t.st = s.st := by
  rcases pop_cases s with ⟨_, hp⟩ | ⟨_, hp⟩ <;> cases hp.symm.trans h
  exact ⟨rfl, rfl⟩

/-- A meaning that may raise keeps the timers when the state it computes does: a fault is taken from the state the
meaning started from (R128). -/
theorem orRaise_timers {s t : State} {r : Except Raise State} (h : orRaise s r = .next t)
    (hok : ∀ u, r = .ok u → u.dt = s.dt ∧ u.st = s.st) : t.dt = s.dt ∧ t.st = s.st := by
  rcases orRaise_next s r with ⟨u, hr, hu⟩ | ⟨e, _, hu⟩ <;> cases hu.symm.trans h
  · exact hok t hr
  · exact ⟨rfl, rfl⟩

/-! ## The timers over a step (R127) -/

/-- `DT` as the execute stage leaves it for the tick: only set-delay-timer writes it (R126, R234). -/
def delayBeforeTick (s : State) : Option Instr → Byte
  | some (.setDelayTimer x) => readReg s x
  | _ => s.dt

/-- `ST` as the execute stage leaves it for the tick: only set-sound-timer writes it (R126, R235). -/
def soundBeforeTick (s : State) : Option Instr → Byte
  | some (.setSoundTimer x) => readReg s x
  | _ => s.st

theorem delayBeforeTick_toNat (s : State) (o : Option Instr) :
    (delayBeforeTick s o).toNat = match o with
      | some (.setDelayTimer x) => (readReg s x).toNat
      | _ => s.dt.toNat := by
  unfold delayBeforeTick
  split <;> rfl

theorem soundBeforeTick_toNat (s : State) (o : Option Instr) :
    (soundBeforeTick s o).toNat = match o with
      | some (.setSoundTimer x) => (readReg s x).toNat
      | _ => s.st.toNat := by
  unfold soundBeforeTick
  split <;> rfl

/-- What every instruction leaves in the two timers, whether it completes or raises. -/
theorem exec_timers {i : Instr} {s t : State} (h : exec i s = .next t) :
    t.dt = delayBeforeTick s (some i) ∧ t.st = soundBeforeTick s (some i) := by
  cases i with
  | ret =>
    refine orRaise_timers h fun u hu => ?_
    split at hu <;> cases hu
    next hpop => simpa using pop_timers hpop
  | call =>
    refine orRaise_timers h fun u hu => ?_
    split at hu <;> cases hu
    next hpush => simpa using push_timers hpush
  | drawSprite | skipIfKeyPressed | skipIfKeyNotPressed | loadFontAddress | storeBCD | storeRegisters | loadRegisters =>
    refine orRaise_timers h fun u hu => ?_
    split at hu <;> cases hu
    simp
  | skipIfEqualImmediate | skipIfNotEqualImmediate | skipIfRegistersEqual | skipIfRegistersNotEqual =>
    cases h
    exact ⟨skipIf_dt _ s, skipIf_st _ s⟩
  | waitForKey =>
    simp only [exec, execWaitForKey] at h
    split at h <;> cases h <;> exact ⟨rfl, rfl⟩
  | _ =>
    cases h
    exact ⟨rfl, rfl⟩

theorem nextInstr_of_done {s t : State} (h : frontEnd s = .done t) : nextInstr s = none := by
  simp [nextInstr, h]

theorem nextInstr_of_execute {s t : State} {i : Instr} (h : frontEnd s = .execute i t) : nextInstr s = some i := by
  simp [nextInstr, h]

/-- A step with an execute stage that answers has answered through that stage and the end of the step. -/
theorem step_execute_inv {s t u : State} {i : Instr} (hfe : frontEnd s = .execute i u) (h : step s = .next t) :
    ∃ v, exec i u = .next v ∧ t = retire s v := by
  simp only [step, hfe] at h
  split at h <;> cases h
  exact ⟨_, ‹_›, rfl⟩

/-- A step leaves a fault and both timers alone, or ticks each of them once after its instruction. -/
theorem step_timers {s t : State} (h : step s = .next t) :
    (t.fault ≠ none ∧ t.dt = s.dt ∧ t.st = s.st) ∨
    (t.fault = none ∧ t.dt = tickTimer (delayBeforeTick s (nextInstr s)) ∧
      t.st = tickTimer (soundBeforeTick s (nextInstr s))) := by
  rcases frontEnd_cases s with ⟨⟨f, hf⟩, hfe⟩ | ⟨_, _, hfe⟩ | ⟨hf, _, w, _, _, _, _, hfe⟩ | ⟨_, _, w, i, _, _, _, hfe⟩
  · cases (step_done hfe).symm.trans h
    exact .inl ⟨by simp [hf], rfl, rfl⟩
  · cases (step_done hfe).symm.trans h
    exact .inl ⟨nofun, rfl, rfl⟩
  · cases (step_done hfe).symm.trans h
    rw [nextInstr_of_done hfe]
    exact .inr ⟨hf, rfl, rfl⟩
  · obtain ⟨u, hexec, rfl⟩ := step_execute_inv hfe h
    cases hu : u.fault with
    | some f =>
      rw [retire_fault hu]
      exact .inl ⟨nofun, rfl, rfl⟩
    | none =>
      obtain ⟨hdt, hst⟩ := exec_timers hexec
      rw [retire_ok hu, nextInstr_of_execute hfe]
      exact .inr ⟨hu, congrArg tickTimer hdt, congrArg tickTimer hst⟩

/-- Settles O11, from the two ends a step can have: with a fault, or with the tick. -/
theorem timersTickOnceAStep : Obligations.TimersTickOnceAStep := by
  intro s t h
  rcases step_timers h with ⟨hf, hkept⟩ | ⟨hf, hdt, hst⟩
  · exact ⟨fun hn => absurd hn hf, fun _ => hkept⟩
  · refine ⟨fun _ => ?_, fun hn => absurd hf hn⟩
    rw [hdt, hst, tickTimer_toNat, tickTimer_toNat, delayBeforeTick_toNat, soundBeforeTick_toNat]
    exact ⟨rfl, rfl⟩

end Sys2Proof.Machine
end

section
/-! Control transfer (R140 to R147): which words decode to each transfer, what the execute stage answers, and the
parts of the state it leaves alone. -/

namespace Sys2Proof.Machine

/-! ## Every word of a table row, from the decoder's answer on the fields it looks at -/

/-- Under the mask 0xF0FF decode looks at the family and the low byte (R95). -/
theorem encodesZ_of_fields {p : Word} {i : Instr} (f : BitVec 4) (nn : Byte) (hp : p.toNat = f.toNat * 4096 + nn.toNat)
    (hd : ∀ w : Word, fieldF w = f → fieldNN w = nn → decode w = .ok i) : EncodesZ 0xF0FF p i := by
  intro w hw
  obtain ⟨hf, hnn⟩ := family_and_byte_of_match hw f nn hp
  exact hd w hf hnn

/-- Under the mask 0xF000 decode looks at the family alone (R94): format A. -/
theorem encodesA_of_family {p : Word} {g : Addr12 → Instr} (f : BitVec 4) (hp : p.toNat = f.toNat * 4096)
    (hd : ∀ w : Word, fieldF w = f → decode w = .ok (g (fieldNNN w))) : EncodesA 0xF000 p g := by
  intro w nnn hw hnnn
  rw [hd w (family_of_match hw f hp), fieldNNN_of hnnn]

/-- Under the mask 0xF000 decode looks at the family alone (R94): format XI. -/
theorem encodesXI_of_family {p : Word} {g : Reg → Byte → Instr} (f : BitVec 4) (hp : p.toNat = f.toNat * 4096)
    (hd : ∀ w : Word, fieldF w = f → decode w = .ok (g (fieldX w) (fieldNN w))) : EncodesXI 0xF000 p g := by
  intro w x nn hw hx hnn
  rw [hd w (family_of_match hw f hp), fieldX_of hx, fieldNN_of hnn]

/-- Under the mask 0xF000 decode looks at the family alone (R94): format XY, whose low nibble is ignored (R99). -/
theorem encodesXY_of_family {p : Word} {g : Reg → Reg → Instr} (f : BitVec 4) (hp : p.toNat = f.toNat * 4096)
    (hd : ∀ w : Word, fieldF w = f → decode w = .ok (g (fieldX w) (fieldY w))) : EncodesXY 0xF000 p g := by
  intro w x y hw hx hy
  rw [hd w (family_of_match hw f hp), fieldX_of hx, fieldY_of hy]

/-! ## Frames of `pc` writes and of a raise -/

theorem setPc_frame (v : Word) (s : State) : Unchanged (fun p => p = .pc) s (setPc v s) := by
  intro p hp
  cases p with
  | pc => exact absurd rfl hp
  | _ => rfl

/-- A fault from the execute stage changes the latch alone (R253). -/
theorem raise_frame (e : Raise) (s : State) : Unchanged (fun p => p = .fault) s (raise e s) := by
  intro p hp
  cases p with
  | fault => exact absurd rfl hp
  | _ => rfl

theorem raises_of_exec {i : Instr} {s : State} {e : Raise} (h : exec i s = .next (raise e s)) :
    Raises i s e.cause e.info :=
  ⟨raise e s, h, raise_fault e s, raise_frame e s⟩

/-! ## Jump targets (R93, R141, R147) -/

@[simp] theorem zextAddr_toNat (nnn : Addr12) : (zextAddr nnn).toNat = nnn.toNat :=
  BitVec.toNat_setWidth_of_le (by decide)

@[simp] theorem zextByte_toNat (v : Byte) : (zextByte v).toNat = v.toNat :=
  BitVec.toNat_setWidth_of_le (by decide)

/-- The sum of R147 stays below 65536, so its `mod` never takes effect. -/
theorem offsetTarget_toNat (s : State) (nnn : Addr12) :
    (offsetTarget s nnn).toNat = (readReg s 0).toNat + nnn.toNat := by
  have hx := (readReg s 0).isLt
  have hn := nnn.isLt
  rw [offsetTarget, BitVec.toNat_add, zextByte_toNat, zextAddr_toNat]
  omega

/-- Settles O28: the execute stage of jump is one write of `pc`. -/
theorem jumpSetsPc : Obligations.JumpSetsPc :=
  ⟨encodesA_of_family 0x1 rfl fun w hf => by simp [decode, hf],
    fun s nnn => ⟨setPc (zextAddr nnn) s, rfl, zextAddr_toNat nnn, setPc_frame _ s⟩⟩

/-- Settles O34: one write of `pc`, with the sum and its bound from `offsetTarget_toNat`. -/
theorem jumpWithOffsetAddsRegisterZero : Obligations.JumpWithOffsetAddsRegisterZero := by
  refine ⟨encodesA_of_family 0xB rfl fun w hf => by simp [decode, hf], fun s nnn => ?_⟩
  have hx := (readReg s 0).isLt
  have hn := nnn.isLt
  refine ⟨setPc (offsetTarget s nnn) s, rfl, ?_, ?_, setPc_frame _ s⟩ <;> rw [setPc_pc, offsetTarget_toNat] <;> omega

/-! ## The skip (R148) -/

theorem skipIf_pc_toNat (c : Bool) (s : State) :
    (skipIf c s).pc.toNat = if c then (s.pc.toNat + 2) % 65536 else s.pc.toNat := by
  cases c with
  | false => rfl
  | true => exact BitVec.toNat_add s.pc 2

theorem skipIf_frame (c : Bool) (s : State) : Unchanged (fun p => p = .pc) s (skipIf c s) := by
  cases c with
  | false => exact fun p _ => by cases p <;> rfl
  | true => exact setPc_frame _ s

/-- What every skip answers, by its condition (R143 to R146). -/
theorem exec_skip {i : Instr} {s : State} (c : Prop) [Decidable c] (h : exec i s = .next (skipIf (decide c) s)) :
    ∃ t : State, exec i s = .next t ∧ t.pc.toNat = (if c then (s.pc.toNat + 2) % 65536 else s.pc.toNat) ∧
      Unchanged (fun p => p = .pc) s t :=
  ⟨_, h, by rw [skipIf_pc_toNat]; simp only [decide_eq_true_eq], skipIf_frame _ s⟩

/-- Settles O30: the skip on an equality of bytes, read as one of numbers. -/
theorem skipIfEqualImmediateTests : Obligations.SkipIfEqualImmediateTests :=
  ⟨encodesXI_of_family 0x3 rfl fun w hf => by simp [decode, hf], fun s x nn => by
    simpa only [BitVec.toNat_inj] using exec_skip (readReg s x = nn) rfl⟩

/-- Settles O31: the skip on an inequality, its two branches the other way round. -/
theorem skipIfNotEqualImmediateTests : Obligations.SkipIfNotEqualImmediateTests :=
  ⟨encodesXI_of_family 0x4 rfl fun w hf => by simp [decode, hf], fun s x nn => by
    simpa only [BitVec.toNat_inj, ne_eq, ite_not] using exec_skip (readReg s x ≠ nn) rfl⟩

/-- Settles O32: as O30, between two registers. -/
theorem skipIfRegistersEqualTests : Obligations.SkipIfRegistersEqualTests :=
  ⟨encodesXY_of_family 0x5 rfl fun w hf => by simp [decode, hf], fun s x y => by
    simpa only [BitVec.toNat_inj] using exec_skip (readReg s x = readReg s y) rfl⟩

/-- Settles O33: as O31, between two registers. -/
theorem skipIfRegistersNotEqualTests : Obligations.SkipIfRegistersNotEqualTests :=
  ⟨encodesXY_of_family 0x9 rfl fun w hf => by simp [decode, hf], fun s x y => by
    simpa only [BitVec.toNat_inj, ne_eq, ite_not] using exec_skip (readReg s x ≠ readReg s y) rfl⟩

/-! ## Return (R140) -/

theorem pop_of_held {s : State} {k : Fin 16} (h : s.sp.val = k.val + 1) :
    pop s = .ok (stackAt s k, setSp k.castSucc s) := by
  rcases pop_cases s with ⟨_, hp⟩ | ⟨h0, _⟩
  · have hk : s.sp.val - 1 = k.val := by omega
    simp only [hk] at hp
    exact hp
  · omega

theorem pop_of_empty {s : State} (h : s.sp.val = 0) : pop s = .error ⟨.stackUnderflow, 0⟩ := by
  rcases pop_cases s with ⟨hpos, _⟩ | ⟨_, hp⟩
  · omega
  · exact hp

theorem exec_ret_of_held {s : State} {k : Fin 16} (h : s.sp.val = k.val + 1) :
    exec .ret s = .next (setPc (stackAt s k) (setSp k.castSucc s)) := by
  simp only [exec, execReturn, pop_of_held h, orRaise]

theorem exec_ret_of_empty {s : State} (h : s.sp.val = 0) : exec .ret s = .next (raise ⟨.stackUnderflow, 0⟩ s) := by
  simp only [exec, execReturn, pop_of_empty h, orRaise]

theorem setPc_setSp_frame (v : Word) (n : Fin 17) (s : State) :
    Unchanged (fun p => p = .pc ∨ p = .sp) s (setPc v (setSp n s)) := by
  intro p hp
  cases p with
  | pc | sp => simp at hp
  | _ => rfl

/-- Settles O27, from the two answers of pop. -/
theorem returnPops : Obligations.ReturnPops :=
  ⟨encodesZ_of_fields 0x0 0xEE rfl fun w hf hnn => by simp [decode, decodeFamily0, hf, hnn],
    fun s _ hk => ⟨_, exec_ret_of_held hk, rfl, rfl, setPc_setSp_frame _ _ s⟩,
    fun _ h0 => raises_of_exec (exec_ret_of_empty h0)⟩

/-! ## Call (R142) -/

/-- A stack entry reads what was last written to it. -/
@[simp] theorem stackAt_setStack_set (k j : Fin 16) (v : Word) (s : State) :
    stackAt (setStack (s.stack.set k v) s) j = if j = k then v else stackAt s j := by
  change (s.stack.set k.val v)[j.val] = if j = k then v else s.stack[j.val]
  rw [Vector.getElem_set]
  simp only [Fin.ext_iff, eq_comm]

theorem push_of_room {s : State} {k : Fin 16} (v : Word) (h : s.sp.val = k.val) :
    push v s = .ok (setSp k.succ (setStack (s.stack.set k v) s)) := by
  rcases push_cases v s with ⟨_, hp⟩ | ⟨hfull, _⟩
  · simp only [h] at hp
    exact hp
  · omega

theorem push_of_full {s : State} (v : Word) (h : s.sp.val = 16) : push v s = .error ⟨.stackOverflow, 16⟩ := by
  rcases push_cases v s with ⟨hroom, _⟩ | ⟨_, hp⟩
  · omega
  · exact hp

theorem exec_call_of_room {s : State} {k : Fin 16} (nnn : Addr12) (h : s.sp.val = k.val) :
    exec (.call nnn) s = .next (setPc (zextAddr nnn) (setSp k.succ (setStack (s.stack.set k s.pc) s))) := by
  simp only [exec, execCall, push_of_room s.pc h, orRaise]

theorem exec_call_of_full {s : State} (nnn : Addr12) (h : s.sp.val = 16) :
    exec (.call nnn) s = .next (raise ⟨.stackOverflow, 16⟩ s) := by
  simp only [exec, execCall, push_of_full s.pc h, orRaise]

/-- A push and a jump write one stack entry, `sp` and `pc`. -/
theorem setPc_push_frame (target v : Word) (k : Fin 16) (s : State) :
    Unchanged (fun p => p = .stackEntry k ∨ p = .sp ∨ p = .pc) s
      (setPc target (setSp k.succ (setStack (s.stack.set k v) s))) := by
  intro p hp
  cases p with
  | pc | sp => simp at hp
  | stackEntry j =>
    have hj : j ≠ k := fun e => hp (.inl (congrArg Part.stackEntry e))
    exact (stackAt_setStack_set k j v s).trans (if_neg hj)
  | _ => rfl

/-- Settles O29, from the two answers of push. -/
theorem callPushes : Obligations.CallPushes :=
  ⟨encodesA_of_family 0x2 rfl fun w hf => by simp [decode, hf],
    fun s nnn k hk => ⟨_, exec_call_of_room nnn hk, (stackAt_setStack_set k k s.pc s).trans (if_pos rfl), rfl,
      zextAddr_toNat nnn, setPc_push_frame _ _ k s⟩,
    fun _ nnn hfull => raises_of_exec (exec_call_of_full nnn hfull)⟩

end Sys2Proof.Machine
end

section
/-! Arithmetic and logic (R160 to R170): what each flag and each result is as a number, the one register an instruction
writes, and the flag written before the result that may read it (R173). -/

namespace Sys2Proof.Machine

/-! ## Every word of a row of family 0x8 -/

/-- Under the mask 0xF00F decode looks at the family and the low nibble (R96): format XY. -/
theorem encodesXY_of_family8_nibble {p : Word} {g : Reg → Reg → Instr} (n : Nibble)
    (hp : p.toNat = 8 * 4096 + n.toNat)
    (hd : ∀ w : Word, fieldN w = n → decodeFamily8 w = .ok (g (fieldX w) (fieldY w))) : EncodesXY 0xF00F p g := by
  intro w x y hw hx hy
  obtain ⟨hf, hn⟩ := family_and_nibble_of_match hw 0x8 n hp
  have hdec : decode w = decodeFamily8 w := by simp [decode, hf]
  rw [hdec, hd w hn, fieldX_of hx, fieldY_of hy]

/-- A row of format XY whose instruction does not use `Y` ignores those bits (R99). -/
theorem encodesX_of_encodesXY {mask p : Word} {g : Reg → Instr} (h : EncodesXY mask p fun x _ => g x) :
    EncodesX mask p g :=
  fun w x hw hx => h w x (fieldY w) hw hx (fieldY_val w)

/-! ## Flags and results as numbers (R166 to R170, R172) -/

@[simp] theorem carryOut_toNat (a b : Byte) : (carryOut a b).toNat = if a.toNat + b.toNat > 255 then 1 else 0 :=
  Bool.cond_decide _ 1 0

@[simp] theorem noBorrow_toNat (a b : Byte) : (noBorrow a b).toNat = if a.toNat ≥ b.toNat then 1 else 0 :=
  Bool.cond_decide _ 1 0

@[simp] theorem strictlyGreater_toNat (a b : Byte) :
    (strictlyGreater a b).toNat = if a.toNat > b.toNat then 1 else 0 :=
  Bool.cond_decide _ 1 0

@[simp] theorem lowBit_toNat (a : Byte) : (lowBit a).toNat = a.toNat % 2 := by
  rw [lowBit, BitVec.getLsbD, Nat.toNat_testBit, pow_zero, Nat.div_one]

@[simp] theorem highBit_toNat (a : Byte) : (highBit a).toNat = a.toNat / 128 := by
  have ha := a.isLt
  rw [highBit, BitVec.getLsbD, Nat.toNat_testBit]
  omega

@[simp] theorem sumLow_toNat (a b : Byte) : (sumLow a b).toNat = (a.toNat + b.toNat) % 256 :=
  BitVec.toNat_ofNat _ 8

@[simp] theorem diffWrap_toNat (a b : Byte) : (diffWrap a b).toNat = (a.toNat + 256 - b.toNat) % 256 := by
  have hb := b.isLt
  rw [diffWrap, BitVec.toNat_sub]
  omega

@[simp] theorem shr1_toNat (a : Byte) : (shr1 a).toNat = a.toNat / 2 := by
  rw [shr1, BitVec.toNat_ushiftRight, Nat.shiftRight_eq_div_pow, pow_one]

@[simp] theorem shl1_toNat (a : Byte) : (shl1 a).toNat = a.toNat * 2 % 256 := by
  rw [shl1, BitVec.toNat_shiftLeft, Nat.shiftLeft_eq, pow_one]

/-! ## One register write (R20) -/

theorem readReg_writeReg_same (r : Reg) (v : Byte) (s : State) : readReg (writeReg r v s) r = v :=
  (readReg_writeReg r r v s).trans (if_pos rfl)

theorem writeReg_frame (r : Reg) (v : Byte) (s : State) : Unchanged (fun p => p = .reg r) s (writeReg r v s) := by
  intro p hp
  cases p with
  | reg q =>
    have hq : q ≠ r := fun e => hp (congrArg Part.reg e)
    exact (readReg_writeReg r q v s).trans (if_neg hq)
  | _ => rfl

/-! ## Loads and logic: the result alone (R160 to R165) -/

/-- Settles O35: the execute stage is one write of the immediate. -/
theorem setImmediateWrites : Obligations.SetImmediateWrites :=
  ⟨encodesXI_of_family 0x6 rfl fun w hf => by simp [decode, hf],
    fun s x nn => ⟨_, rfl, readReg_writeReg_same x nn s, writeReg_frame x nn s⟩⟩

/-- Settles O36: one write of the wrapped sum. -/
theorem addImmediateWraps : Obligations.AddImmediateWraps := by
  refine ⟨encodesXI_of_family 0x7 rfl fun w hf => by simp [decode, hf],
    fun s x nn => ⟨_, rfl, ?_, writeReg_frame x _ s⟩⟩
  rw [readReg_writeReg_same, sumLow_toNat]

/-- Settles O37: one write of the byte of `x[Y]`. -/
theorem assignCopies : Obligations.AssignCopies :=
  ⟨encodesXY_of_family8_nibble 0x0 rfl fun w hn => by simp [decodeFamily8, hn],
    fun s x _ => ⟨_, rfl, readReg_writeReg_same x _ s, writeReg_frame x _ s⟩⟩

/-- Settles O38: each of the three is one write, its bits given by the library's bit lemma. -/
theorem logicCombinesBitwise : Obligations.LogicCombinesBitwise := by
  refine ⟨⟨encodesXY_of_family8_nibble 0x1 rfl fun w hn => by simp [decodeFamily8, hn],
      fun s x y => ⟨_, rfl, fun b => ?_, writeReg_frame x _ s⟩⟩,
    ⟨encodesXY_of_family8_nibble 0x2 rfl fun w hn => by simp [decodeFamily8, hn],
      fun s x y => ⟨_, rfl, fun b => ?_, writeReg_frame x _ s⟩⟩,
    ⟨encodesXY_of_family8_nibble 0x3 rfl fun w hn => by simp [decodeFamily8, hn],
      fun s x y => ⟨_, rfl, fun b => ?_, writeReg_frame x _ s⟩⟩⟩
  · rw [readReg_writeReg_same, BitVec.getLsbD_or]
  · rw [readReg_writeReg_same, BitVec.getLsbD_and]
  · rw [readReg_writeReg_same, BitVec.getLsbD_xor]

/-! ## The flag, then the result (R21, R173) -/

/-- An operand read after the flag write, as a number: the flag itself where the operand is `x[15]`. -/
theorem readReg_writeFlag_toNat (b : Bool) (q : Reg) (s : State) :
    (readReg (writeFlag b s) q).toNat = if q = 15 then b.toNat else (readReg s q).toNat := by
  rw [readReg_writeFlag]
  cases b <;> split <;> rfl

theorem writeReg_writeFlag_frame (r : Reg) (v : Byte) (b : Bool) (s : State) :
    Unchanged (fun p => p = .reg r ∨ p = .reg 15) s (writeReg r v (writeFlag b s)) := by
  intro p hp
  cases p with
  | reg q =>
    have hr : q ≠ r := fun e => hp (.inl (congrArg Part.reg e))
    have hflag : q ≠ 15 := fun e => hp (.inr (congrArg Part.reg e))
    change readReg (writeReg r v (writeFlag b s)) q = readReg s q
    rw [readReg_writeReg, if_neg hr, readReg_writeFlag, if_neg hflag]
  | _ => rfl

/-- What an instruction that writes the flag and then its result answers, from the two numbers it writes: the result
stands in `x[X]` whatever `X` is, and the flag in `x[15]` unless the result overwrote it. -/
theorem exec_flag_then_result {i : Instr} {s : State} {x : Reg} {b : Bool} {v : Byte} {f n : Nat}
    (h : exec i s = .next (writeReg x v (writeFlag b s))) (hf : b.toNat = f) (hv : v.toNat = n) :
    ∃ t : State, exec i s = .next t ∧ (readReg t x).toNat = n ∧ (x ≠ 15 → (readReg t 15).toNat = f) ∧
      Unchanged (fun p => p = .reg x ∨ p = .reg 15) s t := by
  refine ⟨_, h, ?_, fun hx => ?_, writeReg_writeFlag_frame x v b s⟩
  · rw [readReg_writeReg_same, hv]
  · rw [readReg_writeReg, if_neg hx.symm, readReg_writeFlag_toNat, if_pos rfl, hf]

/-- Settles O39: the sum is of the old registers, so the flag write does not reach it. -/
theorem addSetsCarry : Obligations.AddSetsCarry :=
  ⟨encodesXY_of_family8_nibble 0x4 rfl fun w hn => by simp [decodeFamily8, hn],
    fun _ _ _ => exec_flag_then_result rfl (carryOut_toNat _ _) (sumLow_toNat _ _)⟩

/-- Settles O40: both operands are read after the flag write. -/
theorem subtractSetsNoBorrow : Obligations.SubtractSetsNoBorrow := by
  refine ⟨encodesXY_of_family8_nibble 0x5 rfl fun w hn => by simp [decodeFamily8, hn], ?_⟩
  rintro s x y f rfl
  refine exec_flag_then_result rfl (noBorrow_toNat _ _) ?_
  rw [diffWrap_toNat, readReg_writeFlag_toNat, readReg_writeFlag_toNat, noBorrow_toNat]

/-- Settles O41: the source `x[Y]` is read after the flag write. -/
theorem shiftRightReadsY : Obligations.ShiftRightReadsY := by
  refine ⟨encodesXY_of_family8_nibble 0x6 rfl fun w hn => by simp [decodeFamily8, hn], ?_⟩
  rintro s x y f rfl
  refine exec_flag_then_result rfl (lowBit_toNat _) ?_
  rw [shr1_toNat, readReg_writeFlag_toNat, lowBit_toNat]

/-- Settles O42: as O40 with the operands exchanged and the strict flag. -/
theorem subtractReverseSetsStrictFlag : Obligations.SubtractReverseSetsStrictFlag := by
  refine ⟨encodesXY_of_family8_nibble 0x7 rfl fun w hn => by simp [decodeFamily8, hn], ?_⟩
  rintro s x y f rfl
  refine exec_flag_then_result rfl (strictlyGreater_toNat _ _) ?_
  rw [diffWrap_toNat, readReg_writeFlag_toNat, readReg_writeFlag_toNat, strictlyGreater_toNat]

/-- Settles O43: as O41 with the source `x[X]`. -/
theorem shiftLeftReadsX : Obligations.ShiftLeftReadsX := by
  refine ⟨encodesX_of_encodesXY <| encodesXY_of_family8_nibble 0xE rfl fun w hn => by simp [decodeFamily8, hn], ?_⟩
  rintro s x f rfl
  refine exec_flag_then_result rfl (highBit_toNat _) ?_
  rw [shl1_toNat, readReg_writeFlag_toNat, highBit_toNat]

end Sys2Proof.Machine
end

section
/-! Index register and memory (R190, R192 to R195): the one write of `I`, the runs of bytes stored and loaded from `I`
on, and the fault each meaning takes when its operand or an address is out of range. -/

namespace Sys2Proof.Machine

/-! ## A meaning that ends in one checked computation (R128) -/

section
variable {α : Type} {i : Instr} {s : State} {r : Except Raise α} {f : α → State}

theorem exec_of_map_ok {a : α} (h : exec i s = orRaise s (r.map f)) (hr : r = .ok a) : exec i s = .next (f a) := by
  rw [h, hr]
  rfl

theorem raises_of_map_error {e : Raise} (h : exec i s = orRaise s (r.map f)) (hr : r = .error e) :
    Raises i s e.cause e.info := by
  refine raises_of_exec ?_
  rw [h, hr]
  rfl

end

/-- A frame still holds when more parts may be written. -/
theorem Unchanged.mono {may may' : Part → Prop} {s t : State} (h : Unchanged may s t) (hmay : ∀ p, may p → may' p) :
    Unchanged may' s t :=
  fun p hp => h p fun hm => hp (hmay p hm)

/-- Under the mask 0xF0FF decode looks at the family and the low byte (R98): the formats whose one operand is `X`. -/
theorem encodesX_of_fields {p : Word} {g : Reg → Instr} (f : BitVec 4) (nn : Byte)
    (hp : p.toNat = f.toNat * 4096 + nn.toNat)
    (hd : ∀ w : Word, fieldF w = f → fieldNN w = nn → decode w = .ok (g (fieldX w))) : EncodesX 0xF0FF p g := by
  intro w x hw hx
  obtain ⟨hf, hnn⟩ := family_and_byte_of_match hw f nn hp
  rw [hd w hf hnn, fieldX_of hx]

/-! ## The index register (R190, R192) -/

theorem setIndex_frame (v : Word) (s : State) : Unchanged (fun p => p = .index) s (setIndex v s) := by
  intro p hp
  cases p with
  | index => exact absurd rfl hp
  | _ => rfl

/-- Settles O45: the execute stage is one write of `I`. -/
theorem setIndexWrites : Obligations.SetIndexWrites :=
  ⟨encodesA_of_family 0xA rfl fun w hf => by simp [decode, hf],
    fun s nnn => ⟨_, rfl, zextAddr_toNat nnn, setIndex_frame _ s⟩⟩

theorem exec_loadFontAddress (x : Reg) (s : State) :
    exec (.loadFontAddress x) s = orRaise s ((glyphAddress (readReg s x)).map (setIndex · s)) := by
  simp only [exec, execLoadFontAddress]
  cases glyphAddress (readReg s x) <;> rfl

theorem glyphAddress_of_digit {v : Byte} (h : v.toNat ≤ 15) :
    ∃ a, glyphAddress v = .ok a ∧ a.toNat = 0x050 + 5 * v.toNat := by
  rcases glyphAddress_cases v with ⟨_, hok⟩ | ⟨hbad, _⟩
  · exact ⟨_, hok, by rw [BitVec.toNat_ofNat]; omega⟩
  · omega

theorem glyphAddress_of_no_digit {v : Byte} (h : 15 < v.toNat) :
    glyphAddress v = .error ⟨.fontIndexInvalid, v.toNat⟩ := by
  rcases glyphAddress_cases v with ⟨hle, _⟩ | ⟨_, herr⟩
  · omega
  · exact herr

/-- Settles O47, from the two answers of the glyph address. -/
theorem loadFontAddressChecksDigit : Obligations.LoadFontAddressChecksDigit := by
  refine ⟨encodesX_of_fields 0xF 0x29 rfl fun w hf hnn => by simp [decode, decodeFamilyF, hf, hnn],
    fun s x h => ?_, fun s x h => raises_of_map_error (exec_loadFontAddress x s) (glyphAddress_of_no_digit h)⟩
  obtain ⟨a, hok, ha⟩ := glyphAddress_of_digit h
  exact ⟨_, exec_of_map_ok (exec_loadFontAddress x s) hok, ha, setIndex_frame a s⟩

/-! ## A run of bytes stored from `I` on (R193, R194) -/

theorem exec_storeBCD (x : Reg) (s : State) :
    exec (.storeBCD x) s =
      orRaise s ((storeBytes s.mem s.index.toNat (bcdDigits (readReg s x))).map (setMem · s)) := by
  simp only [exec, execStoreBCD, effectiveAddress, Nat.add_zero]
  cases storeBytes s.mem s.index.toNat (bcdDigits (readReg s x)) <;> rfl

theorem exec_storeRegisters (x : Reg) (s : State) :
    exec (.storeRegisters x) s =
      orRaise s ((storeBytes s.mem s.index.toNat (readRegsFrom s 0 (x.val + 1))).map (setMem · s)) := by
  simp only [exec, execStoreRegisters, effectiveAddress, Nat.add_zero]
  cases storeBytes s.mem s.index.toNat (readRegsFrom s 0 (x.val + 1)) <;> rfl

section
variable {i : Instr} {s : State} {bs : List Byte}

/-- An instruction that stores bytes, all in range, writes each at its own address and nothing else. -/
theorem exec_store_of_inRange (h : exec i s = orRaise s ((storeBytes s.mem s.index.toNat bs).map (setMem · s)))
    (hin : ∀ k < bs.length, s.index.toNat + k ≤ 0xFFF) :
    ∃ t : State, exec i s = .next t ∧ (∀ (k : Nat) (hk : k < bs.length), t.mem.read (s.index.toNat + k) = bs[k]) ∧
      Unchanged (fun p => ∃ k : Nat, k < bs.length ∧ p = .byte (s.index.toNat + k)) s t := by
  obtain ⟨m, hm, hread, hkept, _⟩ := storeBytes_ok s.mem s.index.toNat bs hin
  have ht := exec_of_map_ok h hm
  refine ⟨setMem m s, ht, hread, fun p hp => ?_⟩
  cases p with
  | byte a => exact hkept a fun k hk ha => hp ⟨k, hk, congrArg Part.byte ha⟩
  | _ => rfl

/-- An instruction that stores bytes faults at the first address out of range, with no byte written. -/
theorem exec_store_raises (h : exec i s = orRaise s ((storeBytes s.mem s.index.toNat bs).map (setMem · s))) {k : Nat}
    (hk : k < bs.length) (hbad : 0xFFF < s.index.toNat + k) (hgood : ∀ j < k, s.index.toNat + j ≤ 0xFFF) :
    Raises i s .dataOutOfRange (s.index.toNat + k) :=
  raises_of_map_error h (storeBytes_error s.mem s.index.toNat bs k hk hbad hgood)

end

@[simp] theorem bcdDigits_length (v : Byte) : (bcdDigits v).length = 3 := rfl

/-- A byte holds each digit whole, since a digit of a byte is below 256. -/
theorem bcdDigits_getElem_toNat (v : Byte) :
    (bcdDigits v)[0].toNat = v.toNat / 100 ∧ (bcdDigits v)[1].toNat = v.toNat / 10 % 10 ∧
      (bcdDigits v)[2].toNat = v.toNat % 10 := by
  have hv := v.isLt
  refine ⟨?_, ?_, ?_⟩ <;> exact (BitVec.toNat_ofNat _ 8).trans (Nat.mod_eq_of_lt (by omega))

/-- Settles O48: the general store, with the digits as its bytes. -/
theorem storeBcdWritesDigits : Obligations.StoreBcdWritesDigits := by
  refine ⟨encodesX_of_fields 0xF 0x33 rfl fun w hf hnn => by simp [decode, decodeFamilyF, hf, hnn],
    fun s x h => ?_, fun s x k hk => exec_store_raises (exec_storeBCD x s) hk⟩
  have hin : ∀ k < 3, s.index.toNat + k ≤ 0xFFF := fun k hk => by omega
  obtain ⟨t, ht, hread, hframe⟩ := exec_store_of_inRange (exec_storeBCD x s) hin
  have hbyte : ∀ (k : Nat) (hk : k < 3),
      (t.mem.read (s.index.toNat + k)).toNat = ((bcdDigits (readReg s x))[k]'hk).toNat :=
    fun k hk => congrArg BitVec.toNat (hread k hk)
  obtain ⟨h0, h1, h2⟩ := bcdDigits_getElem_toNat (readReg s x)
  exact ⟨t, ht, (hbyte 0 (by decide)).trans h0, (hbyte 1 (by decide)).trans h1, (hbyte 2 (by decide)).trans h2, hframe⟩

@[simp] theorem readRegsFrom_upTo_length (s : State) (x : Reg) : (readRegsFrom s 0 (x.val + 1)).length = x.val + 1 :=
  (readRegsFrom_eq s 0 (x.val + 1) (by omega)).1

/-- Byte `r` that store-registers collects is `x[r]` (R194). -/
theorem readRegsFrom_upTo_getElem (s : State) {x r : Reg} (hr : r.val < (readRegsFrom s 0 (x.val + 1)).length) :
    (readRegsFrom s 0 (x.val + 1))[r.val] = readReg s r := by
  have h := (readRegsFrom_eq s 0 (x.val + 1) (by omega)).2 r.val hr (by omega)
  simpa only [Nat.zero_add] using h

/-- Settles O49: the general store, with the registers as its bytes. -/
theorem storeRegistersWritesRange : Obligations.StoreRegistersWritesRange := by
  refine ⟨encodesX_of_fields 0xF 0x55 rfl fun w hf hnn => by simp [decode, decodeFamilyF, hf, hnn],
    fun s x h => ?_, fun s x k hk => exec_store_raises (exec_storeRegisters x s) (by simpa using Nat.lt_succ_of_le hk)⟩
  obtain ⟨t, ht, hread, hframe⟩ := exec_store_of_inRange (exec_storeRegisters x s) fun k hk => by
    rw [readRegsFrom_upTo_length] at hk
    omega
  simp only [readRegsFrom_upTo_length] at hread hframe
  refine ⟨t, ht, fun r hr => ?_, hframe.mono ?_⟩
  · exact (hread r.val (Nat.lt_succ_of_le hr)).trans (readRegsFrom_upTo_getElem s _)
  · rintro p ⟨k, hk, rfl⟩
    exact ⟨⟨k, by omega⟩, Nat.le_of_lt_succ hk, rfl⟩

/-! ## A run of bytes loaded from `I` on (R195) -/

theorem exec_loadRegisters (x : Reg) (s : State) :
    exec (.loadRegisters x) s =
      orRaise s ((loadBytes s.mem s.index.toNat (x.val + 1)).map (writeRegsFrom 0 · s)) := by
  simp only [exec, execLoadRegisters, effectiveAddress, Nat.add_zero]
  cases loadBytes s.mem s.index.toNat (x.val + 1) <;> rfl

/-- Registers written from a run of `n` values: register `q` takes the `q`-th, and those past the run are kept. -/
theorem readReg_writeRegsFrom_range (g : Nat → Byte) (n : Nat) (s : State) (q : Reg) :
    readReg (writeRegsFrom 0 ((List.range n).map g) s) q = if q.val < n then g q.val else readReg s q := by
  rw [writeRegsFrom_reg]
  by_cases hq : q.val < n <;> simp [hq]

theorem writeRegsFrom_range_frame (g : Nat → Byte) (n : Nat) (s : State) :
    Unchanged (fun p => ∃ r : Reg, r.val < n ∧ p = .reg r) s (writeRegsFrom 0 ((List.range n).map g) s) := by
  intro p hp
  cases p with
  | reg q => exact (readReg_writeRegsFrom_range g n s q).trans (if_neg fun hq => hp ⟨q, hq, rfl⟩)
  | _ =>
    obtain ⟨v, hv⟩ := writeRegsFrom_frame ((List.range n).map g) 0 s
    rw [hv]
    rfl

/-- Settles O50: every byte is read before a register is written, so the first bad address leaves no register written. -/
theorem loadRegistersReadsRange : Obligations.LoadRegistersReadsRange := by
  refine ⟨encodesX_of_fields 0xF 0x65 rfl fun w hf hnn => by simp [decode, decodeFamilyF, hf, hnn],
    fun s x h => ?_, fun s x k hk hbad hgood =>
      raises_of_map_error (exec_loadRegisters x s) (loadBytes_error _ _ _ k (Nat.lt_succ_of_le hk) hbad hgood)⟩
  have hok := loadBytes_ok s.mem s.index.toNat (x.val + 1) fun k hk => by omega
  refine ⟨_, exec_of_map_ok (exec_loadRegisters x s) hok, fun r hr => ?_, (writeRegsFrom_range_frame _ _ s).mono ?_⟩
  · rw [readReg_writeRegsFrom_range, if_pos (Nat.lt_succ_of_le hr)]
  · rintro p ⟨r, hr, rfl⟩
    exact ⟨r, Nat.le_of_lt_succ hr, rfl⟩

end Sys2Proof.Machine
end

section
/-! The display (R210): which words decode to clear-screen, and what a write of the whole display leaves alone. -/

namespace Sys2Proof.Machine

@[simp] theorem exec_clearScreen (s : State) : exec .clearScreen s = .next (setFb 0 s) := rfl

@[simp] theorem pixel_zero (k : Nat) : pixel 0 k = false := BitVec.getLsbD_zero

/-- A display write changes pixels alone; an index past the display reads as off before and after it. -/
theorem setFb_frame (fb : BitVec 2048) (s : State) :
    Unchanged (fun p => ∃ k : Nat, k < 2048 ∧ p = .pixel k) s (setFb fb s) := by
  intro p hp
  cases p with
  | pixel k =>
    have hk : 2048 ≤ k := not_lt.mp fun hlt => hp ⟨k, hlt, rfl⟩
    exact (pixel_beyond fb k hk).trans (pixel_beyond s.fb k hk).symm
  | _ => rfl

/-- Settles O51: the execute stage is one write of the display. -/
theorem clearScreenClears : Obligations.ClearScreenClears :=
  ⟨encodesZ_of_fields 0x0 0xE0 rfl fun w hf hnn => by simp [decode, decodeFamily0, hf, hnn],
    fun s => ⟨_, exec_clearScreen s, fun k _ => pixel_zero k, setFb_frame 0 s⟩⟩

end Sys2Proof.Machine
end

section
/-! Keypad and timers (R230, R231, R233): the skips on a key, their fault on a register that names no key, and the
read of the delay timer before the tick of its own step. -/

namespace Sys2Proof.Machine

/-! ## The skips on a key (R230, R231, R236) -/

theorem keyIndex_of_key {v : Byte} (h : v.toNat ≤ 15) : keyIndex v = .ok v.toNat := by
  rcases keyIndex_cases v with ⟨_, hok⟩ | ⟨hbad, _⟩
  · exact hok
  · omega

theorem keyIndex_of_no_key {v : Byte} (h : 15 < v.toNat) : keyIndex v = .error ⟨.keyIndexInvalid, v.toNat⟩ := by
  rcases keyIndex_cases v with ⟨hle, _⟩ | ⟨_, herr⟩
  · omega
  · exact herr

theorem exec_skipIfKeyPressed (x : Reg) (s : State) :
    exec (.skipIfKeyPressed x) s =
      orRaise s ((keyIndex (readReg s x)).map fun k => skipIf (decide (s.key.getLsbD k = true)) s) := by
  simp only [exec, execSkipIfKeyPressed, keyDown, Bool.decide_eq_true]
  cases keyIndex (readReg s x) <;> rfl

theorem exec_skipIfKeyNotPressed (x : Reg) (s : State) :
    exec (.skipIfKeyNotPressed x) s =
      orRaise s ((keyIndex (readReg s x)).map fun k => skipIf (decide (¬ s.key.getLsbD k = true)) s) := by
  simp only [exec, execSkipIfKeyNotPressed, keyDown, decide_not, Bool.decide_eq_true]
  cases keyIndex (readReg s x) <;> rfl

/-- Settles O54: the skip on a key that is down, from the two answers of the key index. -/
theorem skipIfKeyPressedTests : Obligations.SkipIfKeyPressedTests := by
  refine ⟨encodesX_of_fields 0xE 0x9E rfl fun w hf hnn => by simp [decode, decodeFamilyE, hf, hnn],
    fun s x h => ?_, fun s x h => raises_of_map_error (exec_skipIfKeyPressed x s) (keyIndex_of_no_key h)⟩
  have hexec := exec_of_map_ok (exec_skipIfKeyPressed x s) (keyIndex_of_key h)
  exact exec_skip _ hexec

/-- Settles O55: as O54 with the condition negated, its two branches the other way round. -/
theorem skipIfKeyNotPressedTests : Obligations.SkipIfKeyNotPressedTests := by
  refine ⟨encodesX_of_fields 0xE 0xA1 rfl fun w hf hnn => by simp [decode, decodeFamilyE, hf, hnn],
    fun s x h => ?_, fun s x h => raises_of_map_error (exec_skipIfKeyNotPressed x s) (keyIndex_of_no_key h)⟩
  have hexec := exec_of_map_ok (exec_skipIfKeyNotPressed x s) (keyIndex_of_key h)
  simpa only [ite_not] using exec_skip _ hexec

/-! ## A step whose instruction is known (R120, R127) -/

theorem frontEnd_of_nextInstr {s : State} {i : Instr} (h : nextInstr s = some i) :
    ∃ w, frontEnd s = .execute i (advance w s) := by
  rcases frontEnd_cases s with ⟨_, hfe⟩ | ⟨_, _, hfe⟩ | ⟨_, _, w, _, _, _, _, hfe⟩ | ⟨_, _, w, j, _, _, _, hfe⟩
  · cases (nextInstr_of_done hfe).symm.trans h
  · cases (nextInstr_of_done hfe).symm.trans h
  · cases (nextInstr_of_done hfe).symm.trans h
  · cases (nextInstr_of_execute hfe).symm.trans h
    exact ⟨w, hfe⟩

/-- An instruction that completes is followed by the tick of its step. -/
theorem step_of_exec_ok {s t u : State} {i : Instr} (hfe : frontEnd s = .execute i t) (h : exec i t = .next u)
    (hu : u.fault = none) : step s = .next (tick u) := by
  rw [step_execute hfe h, retire_ok hu]

@[simp] theorem tick_dt (s : State) : (tick s).dt = tickTimer s.dt := rfl

@[simp] theorem readReg_tick (s : State) (r : Reg) : readReg (tick s) r = readReg s r := rfl

/-! ## The delay timer read (R233) -/

theorem exec_getDelayTimer (x : Reg) (s : State) : exec (.getDelayTimer x) s = .next (writeReg x s.dt s) := rfl

/-- Fetch and advance leave `DT` as it was, so the byte written is that of the state the step began in. -/
theorem step_getDelayTimer {s : State} {x : Reg} (hs : s.fault = none) (h : nextInstr s = some (.getDelayTimer x)) :
    ∃ w, step s = .next (tick (writeReg x s.dt (advance w s))) := by
  obtain ⟨w, hfe⟩ := frontEnd_of_nextInstr h
  exact ⟨w, step_of_exec_ok hfe (exec_getDelayTimer x _) hs⟩

/-- Settles O57: the execute stage is one write of `DT` to a register, and the tick comes after it. -/
theorem getDelayTimerReads : Obligations.GetDelayTimerReads := by
  refine ⟨encodesX_of_fields 0xF 0x07 rfl fun w hf hnn => by simp [decode, decodeFamilyF, hf, hnn],
    fun s x => ⟨_, exec_getDelayTimer x s, readReg_writeReg_same x s.dt s, writeReg_frame x s.dt s⟩,
    fun s x hs h => ?_⟩
  obtain ⟨w, hstep⟩ := step_getDelayTimer hs h
  refine ⟨_, hstep, ?_, ?_⟩
  · rw [readReg_tick, readReg_writeReg_same]
  · exact tickTimer_toNat s.dt

end Sys2Proof.Machine
end

section
/-! The fault latch (R121, R254): a halted step is a silent fixed point, and of the host's actions only the reset
clears the latch. -/

namespace Sys2Proof.Machine

/-! ## Halted steps (R121) -/

theorem event_of_fault {s : State} {f : FaultRecord} (h : s.fault = some f) : event s = none := by
  simp [event, h]

theorem step_of_fault {s : State} {f : FaultRecord} (h : s.fault = some f) : step s = .next s := by
  apply step_done
  simp [frontEnd, h]

/-- A state that one step leaves as it is stays as it is in every run. -/
theorem core_run_of_step_fixed {s : State} (h : step s = .next s) (n : Nat) : core.run n s = .next s := by
  induction n with
  | zero => rfl
  | succ n ih =>
    have hcore : core.step s = .next s := h
    simpa only [Host.Core.run, hcore] using ih

/-! ## The host's actions (R70, R71, R254) -/

theorem loadImage_of_lengthOk {bytes : List Byte} (h : 1 ≤ bytes.length ∧ bytes.length ≤ 3584) (s : State) :
    loadImage (some bytes) s = (setMem (copyImage s.mem Config.progBase bytes) s, .ok bytes.length) :=
  if_pos (imageLengthOk_iff.mpr h)

/-- A load keeps the latch: it fails and keeps the whole state, or it writes memory alone. -/
@[simp] theorem loadImage_fault (image : Option (List Byte)) (s : State) :
    (loadImage image s).1.fault = s.fault := by
  match image with
  | none => rfl
  | some [] => rfl
  | some (b :: bs) =>
    by_cases h : (b :: bs).length ≤ 3584
    · have hpos : 1 ≤ (b :: bs).length := Nat.succ_pos bs.length
      rw [loadImage_of_lengthOk ⟨hpos, h⟩, setMem_fault]
    · rw [loadImage_of_too_long (not_le.mp h)]

/-- A valid image is read back byte by byte, from PROG_BASE on. -/
theorem readMemory_loadImage {bytes : List Byte} (hlen : bytes.length ≤ 3584) (s : State) (k : Nat)
    (hk : k < bytes.length) : readMemory (loadImage (some bytes) s).1 (0x200 + k) = bytes[k] := by
  rw [loadImage_of_lengthOk ⟨Nat.one_le_of_lt hk, hlen⟩]
  exact (copyImage_read bytes s.mem 0x200).1 k hk

/-- Settles O6: the halted step is a fixed point, and each host action has its own equation on the latch. -/
theorem haltedMachineNeverChanges : Obligations.HaltedMachineNeverChanges := by
  intro s f hf
  refine ⟨core_run_of_step_fixed (step_of_fault hf), event_of_fault hf, fun image => ?_, fun keys => ?_, hf, rfl, ?_⟩
  · refine ⟨_, rfl, (loadImage_fault image s).trans hf, ?_⟩
    rintro bytes rfl hlen
    exact readMemory_loadImage hlen s
  · exact ⟨_, rfl, hf, rfl⟩
  · exact ⟨_, rfl, rfl⟩

end Sys2Proof.Machine
end

section
/-! The single-write instructions that remain (R171, R191, R234, R235) and wait-for-key (R232). -/

namespace Sys2Proof.Machine

/-! ## random-and and add-to-index (R171, R191) -/

theorem setDraws_writeReg_frame (n : Nat) (r : Reg) (v : Byte) (s : State) :
    Unchanged (fun p => p = .reg r ∨ p = .draws) s (setDraws n (writeReg r v s)) := by
  intro p hp
  cases p with
  | draws => exact absurd (.inr rfl) hp
  | reg q => exact writeReg_frame r v s (.reg q) fun h => hp (.inl h)
  | _ => rfl

/-- Settles O44: one write of the masked byte, and one more byte drawn. -/
theorem randomAndMasksTheByte : Obligations.RandomAndMasksTheByte := by
  refine ⟨encodesXI_of_family 0xC rfl fun w hf => by simp [decode, hf],
    fun s x nn => ⟨_, rfl, fun b => ?_, rfl, setDraws_writeReg_frame _ x _ s⟩⟩
  rw [readReg_setDraws, readReg_writeReg_same, BitVec.getLsbD_and]

/-- Settles O46: one write of the sum, which wraps as 16-bit addition does. -/
theorem addToIndexWraps : Obligations.AddToIndexWraps := by
  refine ⟨encodesX_of_fields 0xF 0x1E rfl fun w hf hnn => by simp [decode, decodeFamilyF, hf, hnn],
    fun s x => ⟨_, rfl, ?_, setIndex_frame _ s⟩⟩
  rw [setIndex_index, BitVec.toNat_add, zextByte_toNat]

/-! ## The timer writes (R234, R235) -/

theorem setDt_frame (v : Byte) (s : State) : Unchanged (fun p => p = .dt) s (setDt v s) := by
  intro p hp
  cases p with
  | dt => exact absurd rfl hp
  | _ => rfl

theorem setSt_frame (v : Byte) (s : State) : Unchanged (fun p => p = .st) s (setSt v s) := by
  intro p hp
  cases p with
  | st => exact absurd rfl hp
  | _ => rfl

/-- Settles O58: the write of `DT` comes before the tick of its own step. -/
theorem setDelayTimerWritesThenTicks : Obligations.SetDelayTimerWritesThenTicks := by
  refine ⟨encodesX_of_fields 0xF 0x15 rfl fun w hf hnn => by simp [decode, decodeFamilyF, hf, hnn],
    fun s x => ⟨_, rfl, rfl, setDt_frame _ s⟩, fun s x hs h => ?_⟩
  obtain ⟨w, hfe⟩ := frontEnd_of_nextInstr h
  exact ⟨_, step_of_exec_ok hfe rfl hs, tickTimer_toNat (readReg s x)⟩

/-- Settles O59: as O58 with `ST`. -/
theorem setSoundTimerWritesThenTicks : Obligations.SetSoundTimerWritesThenTicks := by
  refine ⟨encodesX_of_fields 0xF 0x18 rfl fun w hf hnn => by simp [decode, decodeFamilyF, hf, hnn],
    fun s x => ⟨_, rfl, rfl, setSt_frame _ s⟩, fun s x hs h => ?_⟩
  obtain ⟨w, hfe⟩ := frontEnd_of_nextInstr h
  exact ⟨_, step_of_exec_ok hfe rfl hs, tickTimer_toNat (readReg s x)⟩

/-! ## wait-for-key (R232) -/

theorem lowestKey_of_all_up {keys : BitVec 16} (h : ∀ k < 16, keys.getLsbD k = false) : lowestKey keys = none := by
  rcases lowestKeyFrom_cases keys 0 16 with ⟨hnone, _⟩ | ⟨j, _, hj, _, hdown, _⟩
  · exact hnone
  · cases (h j (by omega)).symm.trans hdown

theorem lowestKey_of_lowest {keys : BitVec 16} {k : Nat} (hk : k < 16) (hdown : keys.getLsbD k = true)
    (hup : ∀ j < k, keys.getLsbD j = false) : lowestKey keys = some k := by
  rcases lowestKeyFrom_cases keys 0 16 with ⟨_, hall⟩ | ⟨j, _, _, hfound, hj, hbelow⟩
  · cases (hall k (Nat.zero_le k) (by omega)).symm.trans hdown
  · rcases lt_trichotomy j k with hlt | rfl | hgt
    · cases (hup j hlt).symm.trans hj
    · exact hfound
    · cases (hbelow k (Nat.zero_le k) hgt).symm.trans hdown

theorem exec_waitForKey_of_none {s : State} (x : Reg) (h : lowestKey s.key = none) :
    exec (.waitForKey x) s = .next (setPc (s.pc - 2) s) := by
  simp only [exec, execWaitForKey, h]

theorem exec_waitForKey_of_some {s : State} {k : Nat} (x : Reg) (h : lowestKey s.key = some k) :
    exec (.waitForKey x) s = .next (writeReg x (BitVec.ofNat 8 k) s) := by
  simp only [exec, execWaitForKey, h]

/-- Settles O56, from the two answers of the scan for the lowest key down. -/
theorem waitForKeyReplaysOrTakesLowest : Obligations.WaitForKeyReplaysOrTakesLowest := by
  refine ⟨encodesX_of_fields 0xF 0x0A rfl fun w hf hnn => by simp [decode, decodeFamilyF, hf, hnn],
    fun s x hup => ⟨_, exec_waitForKey_of_none x (lowestKey_of_all_up hup), ?_, setPc_frame _ s⟩,
    fun s x k hk hdown hup => ⟨_, exec_waitForKey_of_some x (lowestKey_of_lowest hk hdown hup), ?_, writeReg_frame x _ s⟩⟩
  · rw [setPc_pc]
    bv_omega
  · rw [readReg_writeReg_same, BitVec.toNat_ofNat]
    omega

end Sys2Proof.Machine
end

section
/-! draw-sprite (R211 to R214): the pixels it flips and the collision it reports when nothing is out of range, and else
the first fault in its loop order. -/

namespace Sys2Proof.Machine

theorem exec_drawSprite (x y : Reg) (n : Nibble) (s : State) :
    exec (.drawSprite x y n) s =
      orRaise s ((drawRows s.mem s.index.toNat (readReg s x).toNat (readReg s y).toNat 0 n.toNat ⟨s.fb, false⟩).map
        fun c => writeFlag c.hit (setFb c.fb s)) := by
  simp only [exec, execDrawSprite, effectiveAddress, Nat.add_zero]
  cases drawRows s.mem s.index.toNat (readReg s x).toNat (readReg s y).toNat 0 n.toNat ⟨s.fb, false⟩ <;> rfl

/-- A row that raises nothing, in the terms of the statements and in those of the drawing loop. -/
theorem rowFine_iff (s : State) (x y : Reg) (r : Nat) :
    rowFine s.mem s.index.toNat (readReg s x).toNat (readReg s y).toNat r ↔
      ¬ rowBeyondMemory s r ∧ ∀ col < 8, ¬ bitBeyondDisplay s x y r col := by
  simp only [rowFine, rowBeyondMemory, bitBeyondDisplay, not_lt, not_and]
  rfl

/-- The pixels under the 1 bits of a sprite, in the terms of the statements and in those of the drawing loop. -/
theorem rowsCover_iff (s : State) (x y : Reg) (n k : Nat) :
    rowsCover s.mem s.index.toNat (readReg s x).toNat (readReg s y).toNat 0 n k ↔ spriteCovers s x y n k := by
  simp only [rowsCover, Nat.zero_le, Nat.zero_add, true_and]
  rfl

/-- A draw that raises nothing flips the covered pixels of the display, starting from no collision. -/
theorem exec_drawSprite_of_fine {s : State} {x y : Reg} {n : Nibble}
    (h : ∀ row < n.toNat, ¬ rowBeyondMemory s row ∧ ∀ col < 8, ¬ bitBeyondDisplay s x y row col) :
    ∃ c : Canvas, exec (.drawSprite x y n) s = .next (writeFlag c.hit (setFb c.fb s)) ∧
      Canvas.Flips (spriteCovers s x y n.toNat) ⟨s.fb, false⟩ c := by
  obtain ⟨c, hc, hflips⟩ := drawRows_ok s.mem s.index.toNat (readReg s x).toNat (readReg s y).toNat 0 n.toNat
    ⟨s.fb, false⟩ fun r _ hr => (rowFine_iff s x y r).mpr (h r (by omega))
  have hexec := exec_of_map_ok (exec_drawSprite x y n s) hc
  exact ⟨c, hexec, hflips.congr (rowsCover_iff s x y n.toNat)⟩

theorem Canvas.Flips.pixel_iff {S : Nat → Prop} {c d : Canvas} (h : Canvas.Flips S c d) (k : Nat) :
    pixel d.fb k = true ↔ (pixel c.fb k = true ↔ ¬ S k) := by
  by_cases hk : S k
  · simp [h.flipped k hk, hk]
  · simp [h.kept k hk, hk]

theorem writeFlag_setFb_frame {S : Nat → Prop} {b : Bool} {c : Canvas} {s : State}
    (h : ∀ k, ¬ S k → pixel c.fb k = pixel s.fb k) :
    Unchanged (fun p => p = .reg 15 ∨ ∃ k : Nat, S k ∧ p = .pixel k) s (writeFlag b (setFb c.fb s)) := by
  intro p hp
  cases p with
  | reg q => exact (readReg_writeFlag b q _).trans (if_neg fun e => hp (.inl (congrArg Part.reg e)))
  | pixel k => exact h k fun hk => hp (.inr ⟨k, hk, rfl⟩)
  | _ => rfl

/-- Settles O52: the display, the collision and the frame of the flip of the covered pixels. -/
theorem drawSpriteXorsThePixels : Obligations.DrawSpriteXorsThePixels := by
  refine ⟨fun w x y n hw hx hy hn => ?_, fun s x y n h => ?_⟩
  · simp [decode, family_of_match hw 0xD rfl, fieldX_of hx, fieldY_of hy, fieldN_of hn]
  · obtain ⟨c, hexec, hflips⟩ := exec_drawSprite_of_fine h
    have hhit : c.hit = true ↔ ∃ k, spriteCovers s x y n.toNat k ∧ pixel s.fb k = true := by simpa using hflips.hit
    refine ⟨_, hexec, fun k _ => hflips.pixel_iff k, fun hc => ?_, fun hc => ?_, writeFlag_setFb_frame hflips.kept⟩
    · rw [readReg_writeFlag, if_pos rfl, if_pos (hhit.mpr hc)]
    · rw [readReg_writeFlag, if_pos rfl, if_neg fun hh => hc (hhit.mp hh)]

/-- The raise of the first row that is not fine is the fault of the draw (R214). -/
theorem raises_drawSprite_of_row {s : State} {x y : Reg} {n : Nibble} {row : Nat} {e : Raise} (hrow : row < n.toNat)
    (hbefore : rowsBeforeAreFine s x y row)
    (hraise : ∀ (m : Nat) (c : Canvas),
      drawRows s.mem s.index.toNat (readReg s x).toNat (readReg s y).toNat row (m + 1) c = .error e) :
    Raises (.drawSprite x y n) s e.cause e.info :=
  raises_of_map_error (exec_drawSprite x y n s) <|
    drawRows_error _ _ _ _ 0 n.toNat row _ e (Nat.zero_le row) (by omega)
      (fun r _ hr => (rowFine_iff s x y r).mpr (hbefore r hr)) hraise

/-- Settles O53: the row that is not fine is beyond memory, or has a first bit beyond the display. -/
theorem drawSpriteFaultsInLoopOrder : Obligations.DrawSpriteFaultsInLoopOrder := by
  refine ⟨fun s x y n row hrow hbefore hbeyond => raises_drawSprite_of_row hrow hbefore fun m c =>
    drawRows_row_beyond_memory _ _ _ _ row m c hbeyond, fun s x y n row col hrow hbefore hmem hcol hcols hbit => ?_⟩
  obtain ⟨hone, hbad⟩ := hbit
  exact raises_drawSprite_of_row hrow hbefore fun m c => drawRows_bit_beyond_display _ _ _ _ row col m c (not_lt.mp hmem)
    hcol hone hbad fun j hj hs => not_lt.mp fun hlt => hcols j hj ⟨hs, hlt⟩

end Sys2Proof.Machine
end

section
/-! The canonical words (R92, R102): the fields of a word of each format, and the decoder on each row's own word. -/

namespace Sys2Proof.Machine

@[simp] theorem fieldF_wordA (f : BitVec 4) (nnn : Addr12) : fieldF (wordA f nnn) = f := Laws.EncodesInRow.family_wordA f nnn

@[simp] theorem fieldF_wordX (f : BitVec 4) (x : Reg) (nn : Byte) : fieldF (wordX f x nn) = f :=
  Laws.EncodesInRow.family_wordX f x nn

@[simp] theorem fieldF_wordXY (f : BitVec 4) (x y : Reg) (n : Nibble) : fieldF (wordXY f x y n) = f :=
  Laws.EncodesInRow.family_wordXY f x y n

@[simp] theorem fieldN_wordXY (f : BitVec 4) (x y : Reg) (n : Nibble) : fieldN (wordXY f x y n) = n :=
  Laws.EncodesInRow.nibble_wordXY f x y n

@[simp] theorem fieldNNN_wordA (f : BitVec 4) (nnn : Addr12) : fieldNNN (wordA f nnn) = nnn := by
  have hn := nnn.isLt
  refine fieldNNN_of ?_
  simp only [bitsOf, wordA_toNat]
  omega

@[simp] theorem fieldX_wordX (f : BitVec 4) (x : Reg) (nn : Byte) : fieldX (wordX f x nn) = x := by
  have hn := nn.isLt
  have hx := x.isLt
  refine fieldX_of ?_
  simp only [bitsOf, wordX_toNat]
  omega

@[simp] theorem fieldNN_wordX (f : BitVec 4) (x : Reg) (nn : Byte) : fieldNN (wordX f x nn) = nn := by
  have hn := nn.isLt
  refine fieldNN_of ?_
  simp only [bitsOf, wordX_toNat]
  omega

@[simp] theorem fieldX_wordXY (f : BitVec 4) (x y : Reg) (n : Nibble) : fieldX (wordXY f x y n) = x := by
  have hx := x.isLt
  have hy := y.isLt
  have hn := n.isLt
  refine fieldX_of ?_
  simp only [bitsOf, wordXY_toNat]
  omega

@[simp] theorem fieldY_wordXY (f : BitVec 4) (x y : Reg) (n : Nibble) : fieldY (wordXY f x y n) = y := by
  have hy := y.isLt
  have hn := n.isLt
  refine fieldY_of ?_
  simp only [bitsOf, wordXY_toNat]
  omega

/-- Settles O1, by the format of the word: the family selects the branch, the low nibble or byte selects within a
family that has several instructions, and the fields give the operands back. -/
theorem decodeInvertsEncode : Obligations.DecodeInvertsEncode := by
  intro i
  cases i with
  | clearScreen | ret => rfl
  | jump | call | setIndex | jumpWithOffset => simp [encode, decode]
  | skipIfEqualImmediate | skipIfNotEqualImmediate | setImmediate | addImmediate | randomAnd => simp [encode, decode]
  | skipIfRegistersEqual | skipIfRegistersNotEqual | drawSprite => simp [encode, decode]
  | assign | or | and | xor | add | subtract | shiftRight | subtractReverse | shiftLeft =>
    simp [encode, decode, decodeFamily8]
  | skipIfKeyPressed | skipIfKeyNotPressed => simp [encode, decode, decodeFamilyE]
  | getDelayTimer | waitForKey | setDelayTimer | setSoundTimer | addToIndex | loadFontAddress | storeBCD | storeRegisters
  | loadRegisters => simp [encode, decode, decodeFamilyF]

/-- Settles O4: the decoder run on each word. -/
theorem workedWordsDecode : Obligations.WorkedWordsDecode := by
  unfold Obligations.WorkedWordsDecode
  decide

end Sys2Proof.Machine
end

section
/-! The opcode table (R94 to R101): each of its rows decodes to its own instruction, and its rows are all that R100's
list leaves out. -/

namespace Sys2Proof.Machine

/-! ## A word of a row decodes, its fields being the operands -/

section
variable {mask p w : Word}

theorem EncodesA.decode_ok {f : Addr12 → Instr} (he : EncodesA mask p f) (h : w &&& mask = p) :
    decode w = .ok (f (fieldNNN w)) :=
  he w _ h (fieldNNN_toNat w)

theorem EncodesXI.decode_ok {f : Reg → Byte → Instr} (he : EncodesXI mask p f) (h : w &&& mask = p) :
    decode w = .ok (f (fieldX w) (fieldNN w)) :=
  he w _ _ h (fieldX_val w) (fieldNN_toNat w)

theorem EncodesXY.decode_ok {f : Reg → Reg → Instr} (he : EncodesXY mask p f) (h : w &&& mask = p) :
    decode w = .ok (f (fieldX w) (fieldY w)) :=
  he w _ _ h (fieldX_val w) (fieldY_val w)

theorem EncodesX.decode_ok {f : Reg → Instr} (he : EncodesX mask p f) (h : w &&& mask = p) :
    decode w = .ok (f (fieldX w)) :=
  he w _ h (fieldX_val w)

theorem EncodesXYN.decode_ok {f : Reg → Reg → Nibble → Instr} (he : EncodesXYN mask p f) (h : w &&& mask = p) :
    decode w = .ok (f (fieldX w) (fieldY w) (fieldN w)) :=
  he w _ _ _ h (fieldX_val w) (fieldY_val w) (fieldN_toNat w)

end

/-- The word decodes to an instruction of the row's name. -/
def DecodesTo (w : Word) (row : OpcodeRow) : Prop := ∃ i : Instr, decode w = .ok i ∧ i.mnemonic = row.mnemonic

theorem decodesTo_of_mem_rowsLow {w : Word} {row : OpcodeRow} (hrow : row ∈ opcodeRowsLow)
    (h : w &&& row.mask = row.pattern) : DecodesTo w row := by
  simp only [opcodeRowsLow, List.mem_cons, List.not_mem_nil, or_false] at hrow
  rcases hrow with rfl | rfl | rfl | rfl | rfl | rfl | rfl | rfl | rfl
  · exact ⟨_, clearScreenClears.1 w h, rfl⟩
  · exact ⟨_, returnPops.1 w h, rfl⟩
  · exact ⟨_, jumpSetsPc.1.decode_ok h, rfl⟩
  · exact ⟨_, callPushes.1.decode_ok h, rfl⟩
  · exact ⟨_, skipIfEqualImmediateTests.1.decode_ok h, rfl⟩
  · exact ⟨_, skipIfNotEqualImmediateTests.1.decode_ok h, rfl⟩
  · exact ⟨_, skipIfRegistersEqualTests.1.decode_ok h, rfl⟩
  · exact ⟨_, setImmediateWrites.1.decode_ok h, rfl⟩
  · exact ⟨_, addImmediateWraps.1.decode_ok h, rfl⟩

theorem decodesTo_of_mem_rowsArith {w : Word} {row : OpcodeRow} (hrow : row ∈ opcodeRowsArith)
    (h : w &&& row.mask = row.pattern) : DecodesTo w row := by
  obtain ⟨⟨hor, _⟩, ⟨hand, _⟩, hxor, _⟩ := logicCombinesBitwise
  simp only [opcodeRowsArith, List.mem_cons, List.not_mem_nil, or_false] at hrow
  rcases hrow with rfl | rfl | rfl | rfl | rfl | rfl | rfl | rfl | rfl
  · exact ⟨_, assignCopies.1.decode_ok h, rfl⟩
  · exact ⟨_, hor.decode_ok h, rfl⟩
  · exact ⟨_, hand.decode_ok h, rfl⟩
  · exact ⟨_, hxor.decode_ok h, rfl⟩
  · exact ⟨_, addSetsCarry.1.decode_ok h, rfl⟩
  · exact ⟨_, subtractSetsNoBorrow.1.decode_ok h, rfl⟩
  · exact ⟨_, shiftRightReadsY.1.decode_ok h, rfl⟩
  · exact ⟨_, subtractReverseSetsStrictFlag.1.decode_ok h, rfl⟩
  · exact ⟨_, shiftLeftReadsX.1.decode_ok h, rfl⟩

theorem decodesTo_of_mem_rowsHigh {w : Word} {row : OpcodeRow} (hrow : row ∈ opcodeRowsHigh)
    (h : w &&& row.mask = row.pattern) : DecodesTo w row := by
  simp only [opcodeRowsHigh, List.mem_cons, List.not_mem_nil, or_false] at hrow
  rcases hrow with rfl | rfl | rfl | rfl | rfl | rfl | rfl | rfl | rfl | rfl | rfl | rfl | rfl | rfl | rfl | rfl
  · exact ⟨_, skipIfRegistersNotEqualTests.1.decode_ok h, rfl⟩
  · exact ⟨_, setIndexWrites.1.decode_ok h, rfl⟩
  · exact ⟨_, jumpWithOffsetAddsRegisterZero.1.decode_ok h, rfl⟩
  · exact ⟨_, randomAndMasksTheByte.1.decode_ok h, rfl⟩
  · exact ⟨_, drawSpriteXorsThePixels.1.decode_ok h, rfl⟩
  · exact ⟨_, skipIfKeyPressedTests.1.decode_ok h, rfl⟩
  · exact ⟨_, skipIfKeyNotPressedTests.1.decode_ok h, rfl⟩
  · exact ⟨_, getDelayTimerReads.1.decode_ok h, rfl⟩
  · exact ⟨_, waitForKeyReplaysOrTakesLowest.1.decode_ok h, rfl⟩
  · exact ⟨_, setDelayTimerWritesThenTicks.1.decode_ok h, rfl⟩
  · exact ⟨_, setSoundTimerWritesThenTicks.1.decode_ok h, rfl⟩
  · exact ⟨_, addToIndexWraps.1.decode_ok h, rfl⟩
  · exact ⟨_, loadFontAddressChecksDigit.1.decode_ok h, rfl⟩
  · exact ⟨_, storeBcdWritesDigits.1.decode_ok h, rfl⟩
  · exact ⟨_, storeRegistersWritesRange.1.decode_ok h, rfl⟩
  · exact ⟨_, loadRegistersReadsRange.1.decode_ok h, rfl⟩

/-- A word that a row matches decodes to the row's own instruction: the encoding clauses of the instruction statements,
row by row. -/
theorem decodesTo_of_match {w : Word} {row : OpcodeRow} (hrow : row ∈ opcodeTable) (h : w &&& row.mask = row.pattern) :
    DecodesTo w row := by
  simp only [opcodeTable, List.mem_append] at hrow
  rcases hrow with (hlow | harith) | hhigh
  · exact decodesTo_of_mem_rowsLow hlow h
  · exact decodesTo_of_mem_rowsArith harith h
  · exact decodesTo_of_mem_rowsHigh hhigh h

/-! ## The words no row matches (R100) -/

theorem and_F000_eq_iff (w p : Word) : w &&& 0xF000#16 = p ↔ bitsOf w 15 12 * 4096 = p.toNat := by
  rw [← BitVec.toNat_inj, and_F000]

theorem and_F0FF_eq_iff (w p : Word) : w &&& 0xF0FF#16 = p ↔ bitsOf w 15 12 * 4096 + bitsOf w 7 0 = p.toNat := by
  rw [← BitVec.toNat_inj, and_F0FF]

theorem and_F00F_eq_iff (w p : Word) : w &&& 0xF00F#16 = p ↔ bitsOf w 15 12 * 4096 + bitsOf w 3 0 = p.toNat := by
  rw [← BitVec.toNat_inj, and_F00F]

/-- The rows and R100's list together leave no word out: in numbers, every family but four has a row of its own, and
the other four have rows for the low bits their list omits. -/
theorem exists_match_of_not_unrecognized {w : Word} (h : ¬ unrecognizedWord w) :
    ∃ row ∈ opcodeTable, w &&& row.mask = row.pattern := by
  have hf : bitsOf w 15 12 < 16 := by simp only [bitsOf]; omega
  have hnn : bitsOf w 7 0 < 256 := by simp only [bitsOf]; omega
  have hn : bitsOf w 3 0 < 16 := by simp only [bitsOf]; omega
  simp only [opcodeTable, opcodeRowsLow, opcodeRowsArith, opcodeRowsHigh, List.cons_append, List.nil_append,
    List.exists_mem_cons_iff, List.not_mem_nil, false_and, exists_false, or_false, BitVec.ofNat_eq_ofNat,
    and_F000_eq_iff, and_F0FF_eq_iff, and_F00F_eq_iff, BitVec.toNat_ofNat, Nat.reducePow, Nat.reduceMod]
  simp only [unrecognizedWord, List.mem_cons, List.not_mem_nil, or_false] at h
  generalize bitsOf w 15 12 = f at *
  generalize bitsOf w 7 0 = nn at *
  generalize bitsOf w 3 0 = n at *
  interval_cases f <;> omega

/-- Settles O2: a word outside R100's list is matched by a row, which decodes. -/
theorem unrecognizedWordsAreExactlyThese : Obligations.UnrecognizedWordsAreExactlyThese := by
  refine fun w => ⟨fun ⟨r, hr⟩ => by_contra fun hun => ?_, decode_unrecognized⟩
  obtain ⟨row, hrow, hmatch⟩ := exists_match_of_not_unrecognized hun
  obtain ⟨i, hi, _⟩ := decodesTo_of_match hrow hmatch
  cases hi.symm.trans hr

theorem exists_match_of_decode_ok {w : Word} {i : Instr} (h : decode w = .ok i) :
    ∃ row ∈ opcodeTable, w &&& row.mask = row.pattern := by
  refine exists_match_of_not_unrecognized fun hun => ?_
  obtain ⟨r, hr⟩ := decode_unrecognized hun
  cases hr.symm.trans h

theorem mnemonic_of_match {w : Word} {i : Instr} {row : OpcodeRow} (hi : decode w = .ok i) (hrow : row ∈ opcodeTable)
    (h : w &&& row.mask = row.pattern) : row.mnemonic = i.mnemonic := by
  obtain ⟨j, hj, hname⟩ := decodesTo_of_match hrow h
  cases hj.symm.trans hi
  exact hname.symm

theorem opcodeTable_mnemonics_nodup : (opcodeTable.map OpcodeRow.mnemonic).Nodup := by decide

/-- Settles O3: the row that matches is the only one of its name. -/
theorem decodeFollowsOpcodeTable : Obligations.DecodeFollowsOpcodeTable := by
  refine fun w => ⟨⟨fun ⟨i, hi⟩ => exists_match_of_decode_ok hi, fun ⟨row, hrow, h⟩ => ?_⟩,
    fun i hi row hrow => ⟨mnemonic_of_match hi hrow, fun hname => ?_⟩⟩
  · obtain ⟨i, hi, _⟩ := decodesTo_of_match hrow h
    exact ⟨i, hi⟩
  · obtain ⟨row', hrow', h'⟩ := exists_match_of_decode_ok hi
    have hsame : row.mnemonic = row'.mnemonic := hname.trans (mnemonic_of_match hi hrow' h').symm
    rwa [List.inj_on_of_nodup_map opcodeTable_mnemonics_nodup hrow hrow' hsame]

end Sys2Proof.Machine
end

section
/-! Memory and the loader (R60 to R75): the checked accesses, a stored word read back by the next fetch, and the copy of
an image. -/

namespace Sys2Proof.Machine

/-- Settles O24: the range check, and the read after a write. -/
theorem memoryReadsLatestWrite : Obligations.MemoryReadsLatestWrite :=
  fun m a v => ⟨fun h => ⟨memRead_error h, memWrite_error h⟩,
    fun h => ⟨memRead_ok h, m.write a v, memWrite_ok h, m.read_write a v⟩⟩

theorem fetch_setPc {s : State} {a : Word} (h : a.toNat ≤ 0xFFE) :
    ∃ w, fetch (setPc a s) = .ok w ∧ w.toNat = 256 * (s.mem.read a.toNat).toNat + (s.mem.read (a.toNat + 1)).toNat :=
  fetch_ok (s := setPc a s) h

/-- Settles O25: the two lowest registers stored are the two bytes that the fetch reads. -/
theorem storesReachTheNextFetch : Obligations.StoresReachTheNextFetch := by
  intro s t x hx hin ht
  obtain ⟨u, hu, hread, _⟩ := storeRegistersWritesRange.2.1 s x hin
  cases hu.symm.trans ht
  have high : t.mem.read s.index.toNat = readReg s 0 := hread 0 (Fin.zero_le x)
  have low : t.mem.read (s.index.toNat + 1) = readReg s 1 := hread 1 (Fin.le_def.mpr hx)
  rw [← high, ← low]
  exact fetch_setPc (by omega)

/-- Settles O20: the copy reads back byte by byte, and every address outside it is untouched. -/
theorem loadImageCopiesBytes : Obligations.LoadImageCopiesBytes := by
  intro bytes s hpos hlen
  obtain ⟨hin, hout⟩ := copyImage_read bytes s.mem 0x200
  refine ⟨_, loadImage_of_lengthOk ⟨hpos, hlen⟩ s, hin, fun p hp => ?_⟩
  cases p with
  | byte a => exact hout a fun k hk ha => hp ⟨k, hk, congrArg Part.byte ha⟩
  | _ => rfl

end Sys2Proof.Machine
end

section
/-! Reset (R290): the memory it leaves, and the value of every other part. -/

namespace Sys2Proof.Machine

/-- Outside the font region an unlisted address reads as 0 (R61). -/
theorem Memory.unlisted_of_not_font {a : Nat} (h : ¬ (0x050 ≤ a ∧ a ≤ 0x09F)) : Memory.unlisted a = 0 :=
  if_neg fun ⟨hlow, hhigh⟩ => h ⟨hlow, Nat.le_of_lt_succ hhigh⟩

/-- Inside the font region an unlisted address reads as the font's byte (R61, R62). -/
theorem Memory.unlisted_font {k : Nat} (hlen : k < fontRom.length) : Memory.unlisted (0x050 + k) = fontRom[k] := by
  have hk : k < 80 := hlen
  rw [Memory.unlisted, if_pos ⟨Nat.le_add_right _ k, Nat.add_lt_add_left hk 0x050⟩, Nat.add_sub_cancel_left,
    List.getD_eq_getElem _ _ hlen]

/-- The glyph that the spec has from the source (R62). -/
theorem glyphA_of_reset : [State.reset.mem.read 0x082, State.reset.mem.read 0x083, State.reset.mem.read 0x084,
    State.reset.mem.read 0x085, State.reset.mem.read 0x086] = [0xF0, 0x90, 0xF0, 0x90, 0x90] := by decide

theorem readReg_reset (r : Reg) : readReg State.reset r = 0 := by simp [readReg_eq, State.reset]

theorem stackAt_reset (k : Fin 16) : stackAt State.reset k = 0 := by simp [stackAt, State.reset]

/-- The host's reset and the reset state differ in the count of drawn bytes alone. -/
theorem eq_setDraws_reset {s t : State} (h : t = State.reset ∨ act .reset s = .next t) :
    ∃ n : Nat, t = setDraws n State.reset := by
  rcases h with rfl | h
  · exact ⟨0, rfl⟩
  · cases h
    exact ⟨s.draws, rfl⟩

/-- Settles O19: each part of the one reset state. -/
theorem resetLeavesTheTableValues : Obligations.ResetLeavesTheTableValues := by
  intro s t h
  obtain ⟨n, rfl⟩ := eq_setDraws_reset h
  refine ⟨readReg_reset, rfl, rfl, stackAt_reset, rfl, rfl, rfl, rfl, fun k _ => pixel_zero k, rfl, rfl,
    fun a _ ha => Memory.unlisted_of_not_font ha, fun k hlen _ => Memory.unlisted_font hlen, glyphA_of_reset⟩

/-- Settles O17: no cell is listed, and no return address is held. -/
theorem resetMeetsInvariants : Obligations.ResetMeetsInvariants :=
  ⟨rfl, by decide, fun _ hk => absurd hk (Nat.not_lt_zero _)⟩

end Sys2Proof.Machine
end

section
/-! The step around the execute stage (R120 to R128): every instruction and every step answers; the step at a
word that decodes, and at a fetch beyond memory. -/

namespace Sys2Proof.Machine

/-! ## Every step answers (R120, R130) -/

theorem orRaise_answers (s : State) (r : Except Raise State) : ∃ t : State, orRaise s r = .next t := by
  rcases orRaise_next s r with ⟨t, _, ht⟩ | ⟨e, _, ht⟩
  · exact ⟨t, ht⟩
  · exact ⟨raise e s, ht⟩

theorem exec_answers (i : Instr) (s : State) : ∃ t : State, exec i s = .next t := by
  cases i with
  | ret | call | drawSprite | skipIfKeyPressed | skipIfKeyNotPressed | loadFontAddress | storeBCD | storeRegisters
  | loadRegisters => exact orRaise_answers s _
  | waitForKey x =>
    cases hkey : lowestKey s.key with
    | none => exact ⟨_, exec_waitForKey_of_none x hkey⟩
    | some k => exact ⟨_, exec_waitForKey_of_some x hkey⟩
  | _ => exact ⟨_, rfl⟩

theorem step_answers (s : State) : ∃ t : State, step s = .next t := by
  cases hfe : frontEnd s with
  | done t => exact ⟨t, step_done hfe⟩
  | execute i t =>
    obtain ⟨u, hu⟩ := exec_answers i t
    exact ⟨retire s u, step_execute hfe hu⟩

/-- Settles O9: a meaning that may raise answers with the fault, every other with its result. -/
theorem everyStepAnswers : Obligations.EveryStepAnswers := ⟨exec_answers, step_answers⟩

/-! ## A decoded word (R120, R127, R128) -/

theorem frontEnd_of_decode_ok {s : State} {w : Word} {i : Instr} (hs : s.fault = none) (hfetch : fetch s = .ok w)
    (hd : decode w = .ok i) : frontEnd s = .execute i (advance w s) := by
  simp [frontEnd, hs, hfetch, hd]

theorem tickTimer_eq (v : Byte) : tickTimer v = BitVec.ofNat 8 (v.toNat - 1) := by
  rw [← tickTimer_toNat, BitVec.ofNat_toNat, BitVec.setWidth_eq]

theorem tick_eq (s : State) :
    tick s = { s with dt := BitVec.ofNat 8 (s.dt.toNat - 1), st := BitVec.ofNat 8 (s.st.toNat - 1) } := by
  rw [← tickTimer_eq, ← tickTimer_eq]
  rfl

/-- Settles O5: the stages before execute lead to the decoded instruction, and the end of the step is the tick or the
discarding of its writes. -/
theorem stepRunsDecodedInstruction : Obligations.StepRunsDecodedInstruction := by
  intro s w i hs hpc hw hd
  have hfe := frontEnd_of_decode_ok hs (fetch_of_wordAtPc hpc hw) hd
  obtain ⟨u, hexec⟩ := exec_answers i (advance w s)
  have hexec' : exec i { s with opcode := w, pc := s.pc + 2 } = .next u := hexec
  rw [step_execute hfe hexec, hexec']
  cases hu : u.fault with
  | none => simp only [hu, retire_ok hu, tick_eq]
  | some f => simp only [hu, retire_fault hu, setFault]

/-! ## A fetch beyond memory (R122, R128) -/

theorem frontEnd_of_fetch_error {s : State} (hs : s.fault = none) (hpc : 0xFFE < s.pc.toNat) :
    frontEnd s = .done (raiseAt s.pc 0 ⟨.fetchOutOfRange, s.pc.toNat⟩ s) := by
  simp [frontEnd, hs, fetch_error hpc]

theorem event_of_fetch_error {s : State} (hpc : 0xFFE < s.pc.toNat) : event s = none := by
  cases hs : s.fault with
  | some f => exact event_of_fault hs
  | none => simp [event, hs, fetch_error hpc]

/-- Settles O7: the fetch's raise ends the step. -/
theorem fetchBeyondMemoryFaults : Obligations.FetchBeyondMemoryFaults :=
  fun _ hs hpc => ⟨step_done (frontEnd_of_fetch_error hs hpc), event_of_fetch_error hpc⟩

end Sys2Proof.Machine
end

section
/-! What an instruction can do (R126, R252, R253): take a fault under the condition of its row, or complete, writing only
the parts that are its own and keeping memory canonical. -/

namespace Sys2Proof.Machine

/-! ## The two ends of an instruction -/

/-- The rows of R252 for the execute stage: when the instruction may raise, and the raise. -/
def RaiseCondition (s : State) (e : Raise) : Instr → Prop
  | .ret => s.sp.val = 0 ∧ e = ⟨.stackUnderflow, 0⟩
  | .call _ => s.sp.val = 16 ∧ e = ⟨.stackOverflow, 16⟩
  | .loadFontAddress x => 15 < (readReg s x).toNat ∧ e = ⟨.fontIndexInvalid, (readReg s x).toNat⟩
  | .skipIfKeyPressed x | .skipIfKeyNotPressed x =>
    15 < (readReg s x).toNat ∧ e = ⟨.keyIndexInvalid, (readReg s x).toNat⟩
  | .storeBCD _ => ∃ k < 3, 0xFFF < s.index.toNat + k ∧ e = ⟨.dataOutOfRange, s.index.toNat + k⟩
  | .storeRegisters x | .loadRegisters x =>
    ∃ k < x.val + 1, 0xFFF < s.index.toNat + k ∧ e = ⟨.dataOutOfRange, s.index.toNat + k⟩
  | .drawSprite x y n =>
    (∃ row < n.toNat, 0xFFF < s.index.toNat + row ∧ e = ⟨.dataOutOfRange, s.index.toNat + row⟩) ∨
    (∃ row < n.toNat, ∃ col < 8, bitBeyondDisplay s x y row col ∧ e = ⟨.displayOutOfRange, spriteIndex s x y row col⟩)
  | _ => False

/-- The instruction ran to its end: it wrote its own parts of R36 but not the latch, and kept memory canonical. -/
structure Completes (i : Instr) (s t : State) : Prop where
  frame     : Unchanged (fun p => i.mayWrite s p ∧ p ≠ .fault) s t
  canonical : s.mem.wf = true → t.mem.wf = true

theorem Completes.fault {i : Instr} {s t : State} (h : Completes i s t) : t.fault = s.fault :=
  h.frame .fault fun ⟨_, hne⟩ => hne rfl

/-- An instruction that keeps memory completes when the parts it writes are its own. -/
theorem Completes.of_frame {i : Instr} {s t : State} {may : Part → Prop} (h : Unchanged may s t)
    (hmay : ∀ p, may p → i.mayWrite s p ∧ p ≠ .fault) (hmem : t.mem = s.mem) : Completes i s t :=
  ⟨h.mono hmay, fun hwf => hmem ▸ hwf⟩

/-- As `Completes.of_frame`, for the many instructions that write one part. -/
theorem Completes.of_part {i : Instr} {s t : State} {q : Part} (h : Unchanged (fun p => p = q) s t)
    (hq : i.mayWrite s q) (hne : q ≠ .fault) (hmem : t.mem = s.mem) : Completes i s t :=
  .of_frame h (fun _ hp => hp ▸ ⟨hq, hne⟩) hmem

/-! ## The instructions that may raise -/

section
variable {α : Type} {i : Instr} {s t : State} {r : Except Raise α} {f : α → State}

/-- A meaning that ends in one checked computation answers with its result or with its raise (R128). -/
theorem exec_map_cases (h : exec i s = orRaise s (r.map f)) (ht : exec i s = .next t) :
    (∃ a, r = .ok a ∧ t = f a) ∨ (∃ e, r = .error e ∧ t = raise e s) := by
  rw [h] at ht
  cases r with
  | ok a => exact .inl ⟨a, rfl, by cases ht; rfl⟩
  | error e => exact .inr ⟨e, rfl, by cases ht; rfl⟩

end

theorem sp_zero_or_succ (s : State) : s.sp.val = 0 ∨ ∃ k : Fin 16, s.sp.val = k.val + 1 := by
  have hsp := s.sp.isLt
  by_cases h : s.sp.val = 0
  · exact .inl h
  · exact .inr ⟨⟨s.sp.val - 1, by omega⟩, by simp only; omega⟩

theorem sp_full_or_room (s : State) : s.sp.val = 16 ∨ ∃ k : Fin 16, s.sp.val = k.val := by
  have hsp := s.sp.isLt
  by_cases h : s.sp.val = 16
  · exact .inl h
  · exact .inr ⟨⟨s.sp.val, by omega⟩, rfl⟩

theorem exec_ret_cases {s t : State} (h : exec .ret s = .next t) :
    (∃ e, RaiseCondition s e .ret ∧ t = raise e s) ∨ Completes .ret s t := by
  rcases sp_zero_or_succ s with h0 | ⟨k, hk⟩
  · cases (exec_ret_of_empty h0).symm.trans h
    exact .inl ⟨_, ⟨h0, rfl⟩, rfl⟩
  · cases (exec_ret_of_held hk).symm.trans h
    exact .inr (.of_frame (setPc_setSp_frame _ _ s) (by rintro _ (rfl | rfl) <;> exact ⟨trivial, nofun⟩) rfl)

theorem exec_call_cases {s t : State} {nnn : Addr12} (h : exec (.call nnn) s = .next t) :
    (∃ e, RaiseCondition s e (.call nnn) ∧ t = raise e s) ∨ Completes (.call nnn) s t := by
  rcases sp_full_or_room s with hfull | ⟨k, hk⟩
  · cases (exec_call_of_full nnn hfull).symm.trans h
    exact .inl ⟨_, ⟨hfull, rfl⟩, rfl⟩
  · cases (exec_call_of_room nnn hk).symm.trans h
    exact .inr (.of_frame (setPc_push_frame _ _ k s) (by rintro _ (rfl | rfl | rfl) <;> exact ⟨trivial, nofun⟩) rfl)

theorem exec_loadFontAddress_cases {s t : State} {x : Reg} (h : exec (.loadFontAddress x) s = .next t) :
    (∃ e, RaiseCondition s e (.loadFontAddress x) ∧ t = raise e s) ∨ Completes (.loadFontAddress x) s t := by
  rcases exec_map_cases (exec_loadFontAddress x s) h with ⟨a, _, rfl⟩ | ⟨e, he, rfl⟩
  · exact .inr (.of_part (setIndex_frame a s) trivial nofun rfl)
  · rcases glyphAddress_cases (readReg s x) with ⟨_, hok⟩ | ⟨hbad, herr⟩
    · cases hok.symm.trans he
    · cases herr.symm.trans he
      exact .inl ⟨_, ⟨hbad, rfl⟩, rfl⟩

theorem keyIndex_error {v : Byte} {e : Raise} (h : keyIndex v = .error e) :
    15 < v.toNat ∧ e = ⟨.keyIndexInvalid, v.toNat⟩ := by
  rcases keyIndex_cases v with ⟨_, hok⟩ | ⟨hbad, herr⟩
  · cases hok.symm.trans h
  · cases herr.symm.trans h
    exact ⟨hbad, rfl⟩

@[simp] theorem skipIf_mem (c : Bool) (s : State) : (skipIf c s).mem = s.mem := by cases c <;> rfl

theorem exec_skipIfKeyPressed_cases {s t : State} {x : Reg} (h : exec (.skipIfKeyPressed x) s = .next t) :
    (∃ e, RaiseCondition s e (.skipIfKeyPressed x) ∧ t = raise e s) ∨ Completes (.skipIfKeyPressed x) s t := by
  rcases exec_map_cases (exec_skipIfKeyPressed x s) h with ⟨k, _, rfl⟩ | ⟨e, he, rfl⟩
  · exact .inr (.of_part (skipIf_frame _ s) trivial nofun (skipIf_mem _ s))
  · exact .inl ⟨e, keyIndex_error he, rfl⟩

theorem exec_skipIfKeyNotPressed_cases {s t : State} {x : Reg} (h : exec (.skipIfKeyNotPressed x) s = .next t) :
    (∃ e, RaiseCondition s e (.skipIfKeyNotPressed x) ∧ t = raise e s) ∨ Completes (.skipIfKeyNotPressed x) s t := by
  rcases exec_map_cases (exec_skipIfKeyNotPressed x s) h with ⟨k, _, rfl⟩ | ⟨e, he, rfl⟩
  · exact .inr (.of_part (skipIf_frame _ s) trivial nofun (skipIf_mem _ s))
  · exact .inl ⟨e, keyIndex_error he, rfl⟩

/-- What an instruction that stores bytes from `I` on answers (R193, R194). -/
theorem exec_store_cases {i : Instr} {s t : State} {bs : List Byte}
    (hexec : exec i s = orRaise s ((storeBytes s.mem s.index.toNat bs).map (setMem · s)))
    (hlen : i.bytesStored = bs.length) (h : exec i s = .next t) :
    (∃ e, (∃ k < bs.length, 0xFFF < s.index.toNat + k ∧ e = ⟨.dataOutOfRange, s.index.toNat + k⟩) ∧ t = raise e s) ∨
    Completes i s t := by
  rcases exec_map_cases hexec h with ⟨m, hm, rfl⟩ | ⟨e, he, rfl⟩ <;>
    rcases storeBytes_cases s.mem s.index.toNat bs with ⟨m', hm', hread, hwf⟩ | ⟨k, hk, hbad, herr⟩
  · cases hm'.symm.trans hm
    refine .inr ⟨fun p hp => ?_, hwf⟩
    cases p with
    | byte a => exact hread a fun k hk ha => hp ⟨⟨by omega, by omega⟩, nofun⟩
    | _ => rfl
  · cases herr.symm.trans hm
  · cases hm'.symm.trans he
  · cases herr.symm.trans he
    exact .inl ⟨_, ⟨k, hk, hbad, rfl⟩, rfl⟩

theorem exec_storeBCD_cases {s t : State} {x : Reg} (h : exec (.storeBCD x) s = .next t) :
    (∃ e, RaiseCondition s e (.storeBCD x) ∧ t = raise e s) ∨ Completes (.storeBCD x) s t :=
  exec_store_cases (exec_storeBCD x s) rfl h

theorem exec_storeRegisters_cases {s t : State} {x : Reg} (h : exec (.storeRegisters x) s = .next t) :
    (∃ e, RaiseCondition s e (.storeRegisters x) ∧ t = raise e s) ∨ Completes (.storeRegisters x) s t := by
  have hcases := exec_store_cases (exec_storeRegisters x s) (readRegsFrom_upTo_length s x).symm h
  rwa [readRegsFrom_upTo_length] at hcases

theorem exec_loadRegisters_cases {s t : State} {x : Reg} (h : exec (.loadRegisters x) s = .next t) :
    (∃ e, RaiseCondition s e (.loadRegisters x) ∧ t = raise e s) ∨ Completes (.loadRegisters x) s t := by
  rcases exec_map_cases (exec_loadRegisters x s) h with ⟨bs, hbs, rfl⟩ | ⟨e, he, rfl⟩ <;>
    rcases loadBytes_cases s.mem s.index.toNat (x.val + 1) with hok | ⟨k, hk, hbad, herr⟩
  · cases hok.symm.trans hbs
    obtain ⟨v, hv⟩ := writeRegsFrom_frame
      ((List.range (x.val + 1)).map fun k => s.mem.read (s.index.toNat + k)) 0 s
    refine .inr (.of_frame (writeRegsFrom_range_frame _ _ s) ?_ (by rw [hv]; rfl))
    rintro _ ⟨r, hr, rfl⟩
    exact ⟨.inl (decide_eq_true (Fin.le_def.mpr (Nat.le_of_lt_succ hr))), nofun⟩
  · cases herr.symm.trans hbs
  · cases hok.symm.trans he
  · cases herr.symm.trans he
    exact .inl ⟨_, ⟨k, hk, hbad, rfl⟩, rfl⟩

theorem exec_drawSprite_cases {s t : State} {x y : Reg} {n : Nibble} (h : exec (.drawSprite x y n) s = .next t) :
    (∃ e, RaiseCondition s e (.drawSprite x y n) ∧ t = raise e s) ∨ Completes (.drawSprite x y n) s t := by
  rcases exec_map_cases (exec_drawSprite x y n s) h with ⟨c, _, rfl⟩ | ⟨e, he, rfl⟩
  · refine .inr (.of_frame (writeFlag_setFb_frame (S := fun _ => True) fun _ hk => absurd trivial hk) ?_ rfl)
    rintro _ (rfl | ⟨k, _, rfl⟩)
    · exact ⟨.inr ⟨rfl, rfl⟩, nofun⟩
    · exact ⟨trivial, nofun⟩
  · rcases drawRows_cases s.mem s.index.toNat (readReg s x).toNat (readReg s y).toNat n.toNat ⟨s.fb, false⟩ with
      ⟨c, hc⟩ | ⟨row, hrow, hbad, herr⟩ | ⟨row, col, hrow, hcol, hone, hbad, herr⟩
    · cases hc.symm.trans he
    · cases herr.symm.trans he
      exact .inl ⟨_, .inl ⟨row, hrow, hbad, rfl⟩, rfl⟩
    · cases herr.symm.trans he
      exact .inl ⟨_, .inr ⟨row, hrow, col, hcol, ⟨hone, hbad⟩, rfl⟩, rfl⟩

/-! ## Every instruction -/

theorem exec_waitForKey_completes {s t : State} {x : Reg} (h : exec (.waitForKey x) s = .next t) :
    Completes (.waitForKey x) s t := by
  cases hkey : lowestKey s.key with
  | none =>
    cases (exec_waitForKey_of_none x hkey).symm.trans h
    exact .of_part (setPc_frame _ s) trivial nofun rfl
  | some k =>
    cases (exec_waitForKey_of_some x hkey).symm.trans h
    exact .of_part (writeReg_frame x _ s) (.inl (beq_self_eq_true x)) nofun rfl

theorem exec_cases {i : Instr} {s t : State} (h : exec i s = .next t) :
    (∃ e, RaiseCondition s e i ∧ t = raise e s) ∨ Completes i s t := by
  cases i with
  | ret => exact exec_ret_cases h
  | call => exact exec_call_cases h
  | loadFontAddress => exact exec_loadFontAddress_cases h
  | skipIfKeyPressed => exact exec_skipIfKeyPressed_cases h
  | skipIfKeyNotPressed => exact exec_skipIfKeyNotPressed_cases h
  | storeBCD => exact exec_storeBCD_cases h
  | storeRegisters => exact exec_storeRegisters_cases h
  | loadRegisters => exact exec_loadRegisters_cases h
  | drawSprite => exact exec_drawSprite_cases h
  | waitForKey => exact .inr (exec_waitForKey_completes h)
  | setImmediate x | addImmediate x | assign x | or x | and x | xor x | getDelayTimer x =>
    cases h
    exact .inr (.of_part (writeReg_frame x _ s) (.inl (beq_self_eq_true x)) nofun rfl)
  | add x | subtract x | shiftRight x | subtractReverse x | shiftLeft x =>
    cases h
    refine .inr (.of_frame (writeReg_writeFlag_frame x _ _ s) ?_ rfl)
    rintro _ (rfl | rfl)
    · exact ⟨.inl (beq_self_eq_true _), nofun⟩
    · exact ⟨.inr ⟨rfl, rfl⟩, nofun⟩
  | randomAnd x =>
    cases h
    refine .inr (.of_frame (setDraws_writeReg_frame _ x _ s) ?_ rfl)
    rintro _ (rfl | rfl)
    · exact ⟨.inl (beq_self_eq_true _), nofun⟩
    · exact ⟨trivial, nofun⟩
  | jump | jumpWithOffset =>
    cases h
    exact .inr (.of_part (setPc_frame _ s) trivial nofun rfl)
  | skipIfEqualImmediate | skipIfNotEqualImmediate | skipIfRegistersEqual | skipIfRegistersNotEqual =>
    cases h
    exact .inr (.of_part (skipIf_frame _ s) trivial nofun (skipIf_mem _ s))
  | setIndex | addToIndex =>
    cases h
    exact .inr (.of_part (setIndex_frame _ s) trivial nofun rfl)
  | setDelayTimer =>
    cases h
    exact .inr (.of_part (setDt_frame _ s) trivial nofun rfl)
  | setSoundTimer =>
    cases h
    exact .inr (.of_part (setSt_frame _ s) trivial nofun rfl)
  | clearScreen =>
    cases h
    exact .inr (.of_frame (setFb_frame 0 s) (by rintro _ ⟨k, _, rfl⟩; exact ⟨trivial, nofun⟩) rfl)

/-- An instruction that may raise may write the latch. -/
theorem mayWrite_fault_of_raiseCondition {i : Instr} {s : State} {e : Raise} (h : RaiseCondition s e i) :
    i.mayWrite s .fault := by
  cases i with
  | ret | call | drawSprite | skipIfKeyPressed | skipIfKeyNotPressed | loadFontAddress | storeBCD | storeRegisters
  | loadRegisters => trivial
  | _ => exact h

/-- Settles O13: a completed instruction writes parts of its own, and a fault the latch alone. -/
theorem partsHaveTheirWriters : Obligations.PartsHaveTheirWriters := by
  intro i s t h
  rcases exec_cases h with ⟨e, he, rfl⟩ | hdone
  · refine (raise_frame e s).mono ?_
    rintro _ rfl
    exact mayWrite_fault_of_raiseCondition he
  · exact hdone.frame.mono fun _ hp => hp.1

/-! ## The flag register (R21) -/

theorem readReg_flag_then_result {x : Reg} (hx : (15 == x) = false) (v : Byte) (b : Bool) (s : State) :
    readReg (writeReg x v (writeFlag b s)) 15 = if b then 1 else 0 := by
  rw [readReg_writeReg, if_neg (beq_eq_false_iff_ne.mp hx), readReg_writeFlag, if_pos rfl]

/-- The six flag writers leave a bit in `x[15]` when they do not fault and their result does not overwrite it. -/
theorem exec_flag_bit {i : Instr} {s t : State} (h : exec i s = .next t) (hdest : i.namesDestination 15 = false)
    (hflag : i.writesFlag = true) (ht : t.fault = none) : ∃ b : Bool, readReg t 15 = if b then 1 else 0 := by
  cases i with
  | add | subtract | shiftRight | subtractReverse | shiftLeft =>
    cases h
    exact ⟨_, readReg_flag_then_result hdest _ _ s⟩
  | drawSprite x y n =>
    rcases exec_map_cases (exec_drawSprite x y n s) h with ⟨c, _, rfl⟩ | ⟨e, _, rfl⟩
    · exact ⟨c.hit, (readReg_writeFlag c.hit 15 _).trans (if_pos rfl)⟩
    · cases ht
  | _ => cases hflag

/-- Settles O12: the other instructions may not write `x[15]`, and the six leave a bit in it. -/
theorem flagWrittenByExactlySix : Obligations.FlagWrittenByExactlySix := by
  refine fun i s t h hdest => ⟨fun hflag => ?_, fun hflag _ ht => ?_⟩
  · refine partsHaveTheirWriters i s t h (.reg 15) ?_
    rintro (hnames | ⟨hwrites, _⟩)
    · cases hnames.symm.trans hdest
    · cases hwrites.symm.trans hflag
  · obtain ⟨b, hb⟩ := exec_flag_bit h hdest hflag ht
    cases b with
    | false => exact .inl hb
    | true => exact .inr hb

end Sys2Proof.Machine
end

section
/-! The faulting step (R128, R252, R253): it comes of a fetch beyond memory or of an instruction's own raise, and changes
the latch alone. -/

namespace Sys2Proof.Machine

/-! ## Where a step's fault comes from -/

/-- A fault of the execute stage is one of the instruction's raises, taken from the state it started in. -/
theorem exec_fault {i : Instr} {s t : State} {f : FaultRecord} (h : exec i s = .next t) (hs : s.fault = none)
    (ht : t.fault = some f) :
    ∃ e, RaiseCondition s e i ∧ f = ⟨e.cause, s.pc - 2, s.opcode, e.info⟩ := by
  rcases exec_cases h with ⟨e, he, rfl⟩ | hdone
  · exact ⟨e, he, Option.some.inj ht.symm⟩
  · cases (hdone.fault.trans hs).symm.trans ht

/-- Fetch and advance touch nothing that a condition reads. -/
theorem raiseCondition_advance {i : Instr} {s : State} {w : Word} {e : Raise} :
    RaiseCondition (advance w s) e i ↔ RaiseCondition s e i := by
  cases i <;> exact Iff.rfl

/-- The address the fault records is that of the fetch, since advance added the 2 it takes off (R123). -/
theorem advance_pc_sub_two (w : Word) (s : State) : (advance w s).pc - 2 = s.pc := BitVec.add_sub_cancel s.pc 2

/-- A step that faults does so in its fetch, or by the raise of the instruction it executes. -/
theorem step_fault_cases {s t : State} {f : FaultRecord} (hs : s.fault = none) (h : step s = .next t)
    (ht : t.fault = some f) :
    t = setFault (some f) s ∧
      ((0xFFE < s.pc.toNat ∧ f = ⟨.fetchOutOfRange, s.pc, 0, s.pc.toNat⟩) ∨
        ∃ w i e, w.toNat = wordAtPc s ∧ nextInstr s = some i ∧ RaiseCondition s e i ∧ f = ⟨e.cause, s.pc, w, e.info⟩) := by
  rcases frontEnd_cases s with ⟨⟨g, hg⟩, _⟩ | ⟨_, hpc, hfe⟩ | ⟨_, _, w, _, _, _, _, hfe⟩ | ⟨_, _, w, i, _, hw, _, hfe⟩
  · cases hg.symm.trans hs
  · cases (step_done hfe).symm.trans h
    cases ht
    exact ⟨rfl, .inl ⟨hpc, rfl⟩⟩
  · cases (step_done hfe).symm.trans h
    cases hs.symm.trans ht
  · obtain ⟨u, hexec, rfl⟩ := step_execute_inv hfe h
    cases hu : u.fault with
    | none =>
      rw [retire_ok hu] at ht
      cases hu.symm.trans ht
    | some g =>
      rw [retire_fault hu] at ht ⊢
      cases ht
      obtain ⟨e, he, rfl⟩ := exec_fault hexec hs hu
      rw [advance_pc_sub_two]
      exact ⟨rfl, .inr ⟨w, i, e, hw, nextInstr_of_execute hfe, raiseCondition_advance.mp he, rfl⟩⟩

/-! ## The rows of R252 -/

/-- An instruction's raise meets the row of its cause. -/
theorem causeCondition_of_raiseCondition {i : Instr} {s : State} {e : Raise} (hi : nextInstr s = some i)
    (h : RaiseCondition s e i) : causeCondition s e.info e.cause := by
  cases i with
  | ret =>
    obtain ⟨hsp, rfl⟩ := h
    exact ⟨hi, hsp, rfl⟩
  | call nnn =>
    obtain ⟨hsp, rfl⟩ := h
    exact ⟨nnn, hi, hsp, rfl⟩
  | loadFontAddress x =>
    obtain ⟨hx, rfl⟩ := h
    exact ⟨x, hi, hx, rfl⟩
  | skipIfKeyPressed x =>
    obtain ⟨hx, rfl⟩ := h
    exact ⟨x, .inl hi, hx, rfl⟩
  | skipIfKeyNotPressed x =>
    obtain ⟨hx, rfl⟩ := h
    exact ⟨x, .inr hi, hx, rfl⟩
  | storeBCD | storeRegisters | loadRegisters =>
    obtain ⟨k, hk, hbad, rfl⟩ := h
    exact ⟨_, k, hi, hk, rfl, hbad⟩
  | drawSprite x y n =>
    rcases h with ⟨row, hrow, hbad, rfl⟩ | ⟨row, hrow, col, hcol, hbit, rfl⟩
    · exact ⟨_, row, hi, hrow, rfl, hbad⟩
    · exact ⟨x, y, n, row, col, hi, hrow, hcol, hbit, rfl⟩
  | _ => cases h

/-- The row of a fetch fault is met by no instruction's raise. -/
theorem cause_ne_fetchOutOfRange {i : Instr} {s : State} {e : Raise} (h : RaiseCondition s e i) :
    e.cause ≠ .fetchOutOfRange := by
  cases i with
  | ret | call | loadFontAddress | skipIfKeyPressed | skipIfKeyNotPressed =>
    obtain ⟨_, rfl⟩ := h
    exact nofun
  | storeBCD | storeRegisters | loadRegisters =>
    obtain ⟨_, _, _, rfl⟩ := h
    exact nofun
  | drawSprite =>
    rcases h with ⟨_, _, _, rfl⟩ | ⟨_, _, _, _, _, rfl⟩ <;> exact nofun
  | _ => cases h

/-- Settles O10: either source of the fault records the fetch's address, and the word it fetched or 0. -/
theorem faultingStepIsPrecise : Obligations.FaultingStepIsPrecise := by
  intro s t f hs h ht
  obtain ⟨rfl, ⟨_, rfl⟩ | ⟨w, i, e, hw, _, he, rfl⟩⟩ := step_fault_cases hs h ht
  · exact ⟨rfl, rfl, rfl⟩
  · refine ⟨rfl, rfl, ?_⟩
    rwa [if_neg (cause_ne_fetchOutOfRange he)]

/-- Settles O14: the fetch's row directly, the other rows from the instruction's raise. -/
theorem faultCausesHaveTheirConditions : Obligations.FaultCausesHaveTheirConditions := by
  intro s t f hs h ht
  obtain ⟨_, ⟨hpc, rfl⟩ | ⟨w, i, e, _, hi, he, rfl⟩⟩ := step_fault_cases hs h ht
  · exact ⟨hpc, rfl⟩
  · exact causeCondition_of_raiseCondition hi he

end Sys2Proof.Machine
end


section
/-! The invariants (R302, and the model's form of memory): every step keeps them, and so does every run of the host. -/

namespace Sys2Proof.Machine

/-! ## The completed step -/

/-- What a step answers: the old state but for the latch, an unrecognized word's no-op, or the tick after an instruction
that completed. -/
theorem step_cases {s t : State} (h : step s = .next t) :
    (∃ f, t = setFault f s) ∨
    (s.pc.toNat ≤ 0xFFE ∧ ∃ w, t = tick (advance w s)) ∨
    (s.pc.toNat ≤ 0xFFE ∧ ∃ w i u, exec i (advance w s) = .next u ∧ Completes i (advance w s) u ∧ t = tick u) := by
  rcases frontEnd_cases s with ⟨_, hfe⟩ | ⟨_, _, hfe⟩ | ⟨_, hpc, w, _, _, _, _, hfe⟩ | ⟨hs, hpc, w, i, _, _, _, hfe⟩
  · cases (step_done hfe).symm.trans h
    exact .inl ⟨s.fault, rfl⟩
  · cases (step_done hfe).symm.trans h
    exact .inl ⟨_, rfl⟩
  · cases (step_done hfe).symm.trans h
    exact .inr (.inl ⟨hpc, w, rfl⟩)
  · obtain ⟨u, hexec, rfl⟩ := step_execute_inv hfe h
    rcases exec_cases hexec with ⟨e, _, rfl⟩ | hdone
    · exact .inl ⟨_, retire_fault (raise_fault e _)⟩
    · exact .inr (.inr ⟨hpc, w, i, u, hexec, hdone, retire_ok (hdone.fault.trans hs)⟩)

/-- Settles O15: only a completed instruction writes memory, and it keeps the form. -/
theorem stepKeepsMemoryCanonical : Obligations.StepKeepsMemoryCanonical := by
  intro s t hs h
  rcases step_cases h with ⟨f, rfl⟩ | ⟨_, w, rfl⟩ | ⟨_, w, i, u, _, hdone, rfl⟩
  · exact hs
  · exact hs
  · exact hdone.canonical hs

/-! ## Bounds on `pc` and on the return addresses held (R302) -/

/-- Every return address held is at most 0x1000. -/
def ReturnsBounded (s : State) : Prop := ∀ k : Fin 16, k.val < s.sp.val → (stackAt s k).toNat ≤ 0x1000

/-- What does not write the call stack keeps the return addresses bounded. -/
theorem ReturnsBounded.of_frame {s t : State} {may : Part → Prop} (h : ReturnsBounded s) (hframe : Unchanged may s t)
    (hsp : ¬ may .sp) (hstack : ∀ k, ¬ may (.stackEntry k)) : ReturnsBounded t := by
  have same_sp : t.sp = s.sp := hframe .sp hsp
  have same_entry : ∀ k, stackAt t k = stackAt s k := fun k => hframe (.stackEntry k) (hstack k)
  intro k hk
  rw [same_entry]
  exact h k (same_sp ▸ hk)

theorem skipIf_pcBounded {s : State} (c : Bool) (hpc : s.pc.toNat ≤ 0x1000) (hs : ReturnsBounded s) :
    PcBounded (skipIf c s) := by
  refine ⟨?_, hs.of_frame (skipIf_frame c s) nofun fun _ => nofun⟩
  rw [skipIf_pc_toNat]
  split <;> omega

theorem exec_ret_pcBounded {s t : State} (h : exec .ret s = .next t) (hpc : s.pc.toNat ≤ 0x1000)
    (hs : ReturnsBounded s) : PcBounded t := by
  rcases sp_zero_or_succ s with h0 | ⟨k, hk⟩
  · cases (exec_ret_of_empty h0).symm.trans h
    exact ⟨hpc.trans (by decide), hs⟩
  · cases (exec_ret_of_held hk).symm.trans h
    refine ⟨(hs k (by omega)).trans (by decide), fun j hj => hs j ?_⟩
    have hj' : j.val < k.val := hj
    omega

theorem exec_call_pcBounded {s t : State} {nnn : Addr12} (h : exec (.call nnn) s = .next t) (hpc : s.pc.toNat ≤ 0x1000)
    (hs : ReturnsBounded s) : PcBounded t := by
  rcases sp_full_or_room s with hfull | ⟨k, hk⟩
  · cases (exec_call_of_full nnn hfull).symm.trans h
    exact ⟨hpc.trans (by decide), hs⟩
  · cases (exec_call_of_room nnn hk).symm.trans h
    have hnnn := nnn.isLt
    refine ⟨by rw [setPc_pc, zextAddr_toNat]; omega, fun j hj => ?_⟩
    have hj' : j.val < k.val + 1 := hj
    change (stackAt (setStack (s.stack.set k s.pc) s) j).toNat ≤ 0x1000
    rw [stackAt_setStack_set]
    split
    · exact hpc
    · next hne => exact hs j (by have := Fin.val_ne_of_ne hne; omega)

/-- From a `pc` that fetch and advance can leave, every instruction ends within the bounds: only the transfers write
`pc`, and the only address pushed is that `pc`. -/
theorem exec_pcBounded {i : Instr} {s t : State} (h : exec i s = .next t) (hlow : 2 ≤ s.pc.toNat)
    (hpc : s.pc.toNat ≤ 0x1000) (hs : ReturnsBounded s) : PcBounded t := by
  cases i with
  | ret => exact exec_ret_pcBounded h hpc hs
  | call => exact exec_call_pcBounded h hpc hs
  | jump nnn =>
    cases h
    have hnnn := nnn.isLt
    exact ⟨by rw [setPc_pc, zextAddr_toNat]; omega, hs⟩
  | jumpWithOffset nnn =>
    obtain ⟨u, hu, _, hbound, hframe⟩ := jumpWithOffsetAddsRegisterZero.2 s nnn
    cases hu.symm.trans h
    exact ⟨hbound, hs.of_frame hframe nofun fun _ => nofun⟩
  | skipIfEqualImmediate | skipIfNotEqualImmediate | skipIfRegistersEqual | skipIfRegistersNotEqual =>
    cases h
    exact skipIf_pcBounded _ hpc hs
  | skipIfKeyPressed x =>
    rcases exec_map_cases (exec_skipIfKeyPressed x s) h with ⟨k, _, rfl⟩ | ⟨e, _, rfl⟩
    · exact skipIf_pcBounded _ hpc hs
    · exact ⟨hpc.trans (by decide), hs⟩
  | skipIfKeyNotPressed x =>
    rcases exec_map_cases (exec_skipIfKeyNotPressed x s) h with ⟨k, _, rfl⟩ | ⟨e, _, rfl⟩
    · exact skipIf_pcBounded _ hpc hs
    · exact ⟨hpc.trans (by decide), hs⟩
  | waitForKey x =>
    cases hkey : lowestKey s.key with
    | none =>
      cases (exec_waitForKey_of_none x hkey).symm.trans h
      exact ⟨by rw [setPc_pc]; bv_omega, hs⟩
    | some k =>
      cases (exec_waitForKey_of_some x hkey).symm.trans h
      exact ⟨hpc.trans (by decide), hs⟩
  | _ =>
    have hframe := partsHaveTheirWriters _ s t h
    have same_pc : t.pc = s.pc := hframe .pc nofun
    exact ⟨by rw [same_pc]; omega, hs.of_frame hframe nofun fun _ => nofun⟩

/-- Settles O16: after fetch and advance `pc` lies between 2 and 0x1000. -/
theorem stepKeepsPcBounded : Obligations.StepKeepsPcBounded := by
  intro s t ⟨hpc, hs⟩ h
  rcases step_cases h with ⟨f, rfl⟩ | ⟨hfetch, w, rfl⟩ | ⟨hfetch, w, i, u, hexec, _, rfl⟩
  · exact ⟨hpc, hs⟩
  · have hadv : (tick (advance w s)).pc.toNat = s.pc.toNat + 2 := advance_pc_toNat w hfetch
    exact ⟨by omega, hs⟩
  · have hadv := advance_pc_toNat w hfetch
    have hbound : PcBounded u := exec_pcBounded hexec (by omega) (by omega) hs
    exact hbound

/-! ## Runs under the host -/

/-- What every action of the host keeps, a run of actions keeps. -/
theorem runActions_keeps {P : State → Prop} (hact : ∀ a s t, P s → act a s = .next t → P t) {actions : List HostAction}
    {s t : State} (hs : P s) (h : runActions actions s = .next t) : P t := by
  induction actions generalizing s with
  | nil =>
    cases h
    exact hs
  | cons a rest ih =>
    simp only [runActions] at h
    split at h
    · next u hu => exact ih (hact a s u hs hu) h
    · cases h
    · cases h

/-- A load, failed or not, writes memory at most. -/
theorem loadImage_eq_setMem (image : Option (List Byte)) (s : State) : ∃ m, (loadImage image s).1 = setMem m s := by
  unfold loadImage
  split
  · exact ⟨s.mem, rfl⟩
  · split
    · exact ⟨_, rfl⟩
    · split <;> exact ⟨s.mem, rfl⟩

theorem act_keeps_pcBounded (a : HostAction) (s t : State) (hs : PcBounded s) (h : act a s = .next t) : PcBounded t := by
  cases a with
  | reset =>
    cases h
    exact resetMeetsInvariants.2
  | load image =>
    cases h
    obtain ⟨m, hm⟩ := loadImage_eq_setMem image s
    rw [hm]
    exact hs
  | keys =>
    cases h
    exact hs
  | step => exact stepKeepsPcBounded s t hs h

/-- Settles O18: reset meets the bounds and every action keeps them. -/
theorem reachablePcBounded : Obligations.ReachablePcBounded :=
  fun _ _ h => (runActions_keeps act_keeps_pcBounded resetMeetsInvariants.2 h).1

end Sys2Proof.Machine
end

section
/-! The inputs of a step (R129): the keypad and the position in the sequence of random bytes, and the instructions that
read each. -/

namespace Sys2Proof.Machine

/-- A new value of one of the two inputs of R129. -/
inductive Input where
  | keys (value : BitVec 16)
  | draws (position : Nat)

/-- The state with the new value in place of the old one. -/
def Input.set : Input → State → State
  | .keys v => hostSetKeys v
  | .draws n => setDraws n

/-- Whether the instruction reads this input. -/
def Input.readBy : Input → Instr → Bool
  | .keys _ => Instr.readsKeypad
  | .draws _ => Instr.readsRandom

/-! ## What an operation does is the same under any input -/

section
variable (u : Input)

theorem Input.set_fault (s : State) : (u.set s).fault = s.fault := by cases u <;> rfl

theorem Input.set_pc (s : State) : (u.set s).pc = s.pc := by cases u <;> rfl

theorem Input.set_sp (s : State) : (u.set s).sp = s.sp := by cases u <;> rfl

theorem Input.set_index (s : State) : (u.set s).index = s.index := by cases u <;> rfl

theorem Input.set_mem (s : State) : (u.set s).mem = s.mem := by cases u <;> rfl

theorem Input.set_fb (s : State) : (u.set s).fb = s.fb := by cases u <;> rfl

theorem Input.readReg_set (s : State) (r : Reg) : readReg (u.set s) r = readReg s r := by cases u <;> rfl

theorem Input.readRegsFrom_set (s : State) (k count : Nat) : readRegsFrom (u.set s) k count = readRegsFrom s k count := by
  induction count generalizing k with
  | zero => rfl
  | succ count ih => simp only [readRegsFrom, ih, u.readReg_set]

theorem Input.fetch_set (s : State) : fetch (u.set s) = fetch s := by cases u <;> rfl

theorem Input.advance_set (w : Word) (s : State) : advance w (u.set s) = u.set (advance w s) := by cases u <;> rfl

theorem Input.tick_set (s : State) : tick (u.set s) = u.set (tick s) := by cases u <;> rfl

theorem Input.setFault_set (f : Option FaultRecord) (s : State) : setFault f (u.set s) = u.set (setFault f s) := by
  cases u <;> rfl

theorem Input.raise_set (e : Raise) (s : State) : raise e (u.set s) = u.set (raise e s) := by cases u <;> rfl

theorem Input.skipIf_set (c : Bool) (s : State) : skipIf c (u.set s) = u.set (skipIf c s) := by
  cases u <;> cases c <;> rfl

theorem Input.writeRegsFrom_set (k : Nat) (bs : List Byte) (s : State) :
    writeRegsFrom k bs (u.set s) = u.set (writeRegsFrom k bs s) := by
  induction bs generalizing k s with
  | nil => rfl
  | cons b bs ih =>
    rw [writeRegsFrom, writeRegsFrom, ← ih]
    congr 1
    cases u <;> split <;> rfl

theorem Input.retire_set (s t : State) : retire (u.set s) (u.set t) = u.set (retire s t) := by
  cases ht : t.fault with
  | none => rw [retire_ok ht, retire_ok ((u.set_fault t).trans ht), u.tick_set]
  | some f => rw [retire_fault ht, retire_fault ((u.set_fault t).trans ht), u.setFault_set]

/-- A checked computation that reads no input, with a result that the input does not reach. -/
theorem Input.orRaise_map_set {α : Type} {s t : State} {r : Except Raise α} {f g : α → State}
    (h : orRaise s (r.map f) = .next t) (hg : ∀ a, g a = u.set (f a)) :
    orRaise (u.set s) (r.map g) = .next (u.set t) := by
  cases r with
  | ok a =>
    cases h
    exact congrArg Host.Outcome.next (hg a)
  | error e =>
    cases h
    exact congrArg Host.Outcome.next (u.raise_set e s)

end

/-! ## Instructions and steps -/

/-- An instruction that does not read the input does the same under any value of it, and keeps that value. -/
theorem Input.exec_set (u : Input) {i : Instr} {s t : State} (hi : u.readBy i = false) (h : exec i s = .next t) :
    exec i (u.set s) = .next (u.set t) := by
  cases i with
  | ret =>
    rcases sp_zero_or_succ s with h0 | ⟨k, hk⟩
    · cases (exec_ret_of_empty h0).symm.trans h
      rw [exec_ret_of_empty (s := u.set s) (u.set_sp s ▸ h0), u.raise_set]
    · cases (exec_ret_of_held hk).symm.trans h
      rw [exec_ret_of_held (s := u.set s) (u.set_sp s ▸ hk)]
      cases u <;> rfl
  | call nnn =>
    rcases sp_full_or_room s with hfull | ⟨k, hk⟩
    · cases (exec_call_of_full nnn hfull).symm.trans h
      rw [exec_call_of_full (s := u.set s) nnn (u.set_sp s ▸ hfull), u.raise_set]
    · cases (exec_call_of_room nnn hk).symm.trans h
      rw [exec_call_of_room (s := u.set s) nnn (u.set_sp s ▸ hk)]
      cases u <;> rfl
  | loadFontAddress =>
    rw [exec_loadFontAddress] at h ⊢
    rw [u.readReg_set]
    exact u.orRaise_map_set h fun _ => by cases u <;> rfl
  | storeBCD =>
    rw [exec_storeBCD] at h ⊢
    rw [u.readReg_set, u.set_mem, u.set_index]
    exact u.orRaise_map_set h fun _ => by cases u <;> rfl
  | storeRegisters =>
    rw [exec_storeRegisters] at h ⊢
    rw [u.readRegsFrom_set, u.set_mem, u.set_index]
    exact u.orRaise_map_set h fun _ => by cases u <;> rfl
  | loadRegisters =>
    rw [exec_loadRegisters] at h ⊢
    rw [u.set_mem, u.set_index]
    exact u.orRaise_map_set h fun bs => u.writeRegsFrom_set 0 bs s
  | drawSprite =>
    rw [exec_drawSprite] at h ⊢
    rw [u.readReg_set, u.readReg_set, u.set_mem, u.set_index, u.set_fb]
    exact u.orRaise_map_set h fun _ => by cases u <;> rfl
  | skipIfKeyPressed =>
    cases u with
    | keys => cases hi
    | draws n =>
      rw [exec_skipIfKeyPressed] at h ⊢
      exact Input.orRaise_map_set (.draws n) h fun _ => Input.skipIf_set (.draws n) _ s
  | skipIfKeyNotPressed =>
    cases u with
    | keys => cases hi
    | draws n =>
      rw [exec_skipIfKeyNotPressed] at h ⊢
      exact Input.orRaise_map_set (.draws n) h fun _ => Input.skipIf_set (.draws n) _ s
  | waitForKey x =>
    cases u with
    | keys => cases hi
    | draws n =>
      cases hkey : lowestKey s.key with
      | none =>
        cases (exec_waitForKey_of_none x hkey).symm.trans h
        exact exec_waitForKey_of_none x hkey
      | some k =>
        cases (exec_waitForKey_of_some x hkey).symm.trans h
        exact exec_waitForKey_of_some x hkey
  | randomAnd =>
    cases u with
    | keys => cases h; rfl
    | draws => cases hi
  | skipIfEqualImmediate | skipIfNotEqualImmediate | skipIfRegistersEqual | skipIfRegistersNotEqual =>
    cases h
    rw [← u.skipIf_set]
    cases u <;> rfl
  | _ =>
    cases h
    cases u <;> rfl

/-- A step whose instruction, if any, does not read the input is the same step under any value of it. -/
theorem Input.step_set (u : Input) {s t : State} (hi : ∀ i, nextInstr s = some i → u.readBy i = false)
    (h : step s = .next t) : step (u.set s) = .next (u.set t) := by
  rcases frontEnd_cases s with ⟨⟨f, hf⟩, hfe⟩ | ⟨hs, hpc, hfe⟩ | ⟨hs, _, w, r, hfetch, _, hd, hfe⟩ |
    ⟨hs, _, w, i, hfetch, _, hd, hfe⟩
  · cases (step_done hfe).symm.trans h
    exact step_of_fault ((u.set_fault s).trans hf)
  · cases (step_done hfe).symm.trans h
    rw [step_done (frontEnd_of_fetch_error ((u.set_fault s).trans hs) (u.set_pc s ▸ hpc)), u.set_pc]
    exact congrArg Host.Outcome.next (u.setFault_set _ s)
  · cases (step_done hfe).symm.trans h
    rw [step_of_decode_error ((u.set_fault s).trans hs) ((u.fetch_set s).trans hfetch) hd, u.advance_set, u.tick_set]
  · obtain ⟨v, hexec, rfl⟩ := step_execute_inv hfe h
    have hfe' := frontEnd_of_decode_ok ((u.set_fault s).trans hs) ((u.fetch_set s).trans hfetch) hd
    rw [u.advance_set] at hfe'
    rw [step_execute hfe' (u.exec_set (hi i (nextInstr_of_execute hfe)) hexec), u.retire_set]

/-- Settles O26: the same theorem for each of the two inputs. -/
theorem inputsReachOnlyTheirInstructions : Obligations.InputsReachOnlyTheirInstructions :=
  fun _ _ h => ⟨fun v hi => Input.step_set (.keys v) hi h, fun n hi => Input.step_set (.draws n) hi h⟩

end Sys2Proof.Machine
end

section
/-! Two runs (R292, R300): the machine with nothing loaded slides to the end of memory, and the program that has ended
stays in its jump. -/

namespace Sys2Proof.Machine

/-! ## Runs -/

theorem core_run_succ {s t : State} (h : step s = .next t) (n : Nat) : core.run (n + 1) s = core.run n t := by
  have hcore : core.step s = .next t := h
  simp only [Host.Core.run, hcore]

theorem core_run_add {m : Nat} {s t : State} (h : core.run m s = .next t) (n : Nat) :
    core.run (m + n) s = core.run n t := by
  induction m generalizing s with
  | zero =>
    cases h
    rw [Nat.zero_add]
  | succ m ih =>
    obtain ⟨u, hu⟩ := step_answers s
    rw [core_run_succ hu] at h
    rw [Nat.add_right_comm, core_run_succ hu, ih h]

theorem Part.Same.trans {p : Part} {s t u : State} (h : p.Same s t) (h' : p.Same t u) : p.Same s u := by
  cases p <;> exact Eq.trans h' h

theorem Unchanged.trans {may : Part → Prop} {s t u : State} (h : Unchanged may s t) (h' : Unchanged may t u) :
    Unchanged may s u :=
  fun p hp => (h p hp).trans (h' p hp)

/-! ## The empty machine (R292) -/

/-- The reset state `k` words further on. -/
def slide (k : Nat) : State := setPc (BitVec.ofNat 16 (0x200 + 2 * k)) State.reset

theorem slide_pc_toNat {k : Nat} (h : k ≤ 1792) : (slide k).pc.toNat = 0x200 + 2 * k := by
  rw [slide, setPc_pc, BitVec.toNat_ofNat]
  omega

theorem fetch_slide {k : Nat} (h : k < 1792) : fetch (slide k) = .ok 0x0000 := by
  have hpc := slide_pc_toNat h.le
  refine fetch_of_wordAtPc (by omega) ?_
  change 0 = 256 * (Memory.unlisted (slide k).pc.toNat).toNat + (Memory.unlisted ((slide k).pc.toNat + 1)).toNat
  rw [Memory.unlisted_of_not_font (by omega), Memory.unlisted_of_not_font (by omega)]
  rfl

theorem decode_zero : decode 0x0000 = .error .unrecognizedFamily0 := rfl

theorem step_slide {k : Nat} (h : k < 1792) : step (slide k) = .next (slide (k + 1)) := by
  rw [step_of_decode_error rfl (fetch_slide h) decode_zero]
  have hpc : (slide k).pc + 2 = BitVec.ofNat 16 (0x200 + 2 * (k + 1)) := by
    rw [Nat.mul_succ, ← Nat.add_assoc, BitVec.ofNat_add]
    rfl
  exact congrArg (fun v => Host.Outcome.next (setPc v State.reset)) hpc

theorem core_run_slide {k : Nat} (h : k ≤ 1792) : core.run k State.reset = .next (slide k) := by
  induction k with
  | zero => rfl
  | succ k ih => rw [core_run_add (ih (by omega)), core_run_succ (step_slide h) 0]; rfl

/-- Settles O22: 1792 slides, and then a fetch beyond memory. -/
theorem emptyMachineSlidesToItsEnd : Obligations.EmptyMachineSlidesToItsEnd := by
  refine ⟨fun k hk => core_run_slide hk, fun k hk => event_of_decode_error rfl (fetch_slide hk) decode_zero, ?_⟩
  have hend : 0xFFE < (slide 1792).pc.toNat := by rw [slide_pc_toNat le_rfl]; decide
  rw [show 1793 = 1792 + 1 from rfl, core_run_add (core_run_slide le_rfl),
    core_run_succ (fetchBeyondMemoryFaults _ rfl hend).1]
  rfl

/-! ## The ended program (R300) -/

theorem zextAddr_fieldNNN {w a : Word} (hw : w.toNat = 0x1000 + a.toNat) (ha : a.toNat ≤ 0xFFE) :
    zextAddr (fieldNNN w) = a := by
  apply BitVec.eq_of_toNat_eq
  rw [zextAddr_toNat, fieldNNN_toNat]
  simp only [bitsOf]
  omega

theorem decode_jump {w a : Word} (hw : w.toNat = 0x1000 + a.toNat) (ha : a.toNat ≤ 0xFFE) :
    decode w = .ok (.jump (fieldNNN w)) := by
  refine jumpSetsPc.1.decode_ok ((and_F000_eq_iff w 0x1000).mpr ?_)
  change bitsOf w 15 12 * 4096 = 4096
  simp only [bitsOf]
  omega

/-- The step of an ended program executes the jump, which leaves `pc` where the fetch found it. -/
theorem step_of_programEnded {s : State} {a : Word} (h : ProgramEnded a s) :
    ∃ w : Word, w.toNat = 0x1000 + a.toNat ∧ step s = .next (setPc s.pc (tick (advance w s))) := by
  obtain ⟨rfl, ha, hword, hs⟩ := h
  obtain ⟨w, hfetch, hw⟩ := fetch_ok ha
  rw [hword] at hw
  have hfe := frontEnd_of_decode_ok hs hfetch (decode_jump hw ha)
  refine ⟨w, hw, ?_⟩
  rw [step_of_exec_ok hfe rfl hs, zextAddr_fieldNNN hw ha]
  rfl

theorem setPc_tick_advance_frame (w : Word) (s : State) :
    Unchanged (fun p => p = .opcode ∨ p = .dt ∨ p = .st) s (setPc s.pc (tick (advance w s))) := by
  intro p hp
  by_cases hpc : p = .pc
  · subst hpc
    exact setPc_pc s.pc (tick (advance w s))
  · exact (tick_advance_frame w s p (not_or.mpr ⟨hpc, hp⟩)).trans (setPc_frame s.pc _ p hpc)

/-- One step of an ended program: it has still ended, and only `opcode` and the timers were written. -/
theorem step_programEnded {s : State} {a : Word} (h : ProgramEnded a s) :
    ∃ t : State, step s = .next t ∧ ProgramEnded a t ∧ t.opcode.toNat = 0x1000 + a.toNat ∧
      t.dt.toNat = s.dt.toNat - 1 ∧ t.st.toNat = s.st.toNat - 1 ∧
      Unchanged (fun p => p = .opcode ∨ p = .dt ∨ p = .st) s t := by
  obtain ⟨w, hw, hstep⟩ := step_of_programEnded h
  exact ⟨_, hstep, h, hw, tickTimer_toNat s.dt, tickTimer_toNat s.st, setPc_tick_advance_frame w s⟩

theorem run_programEnded {s : State} {a : Word} (n : Nat) (h : ProgramEnded a s) :
    ∃ t : State, core.run n s = .next t ∧ ProgramEnded a t ∧ t.dt.toNat = s.dt.toNat - n ∧
      t.st.toNat = s.st.toNat - n ∧ Unchanged (fun p => p = .opcode ∨ p = .dt ∨ p = .st) s t := by
  induction n generalizing s with
  | zero => exact ⟨s, rfl, h, rfl, rfl, fun p _ => by cases p <;> rfl⟩
  | succ n ih =>
    obtain ⟨t, hstep, ht, _, hdt, hst, hframe⟩ := step_programEnded h
    obtain ⟨u, hrun, hu, hdt', hst', hframe'⟩ := ih ht
    exact ⟨u, (core_run_succ hstep n).trans hrun, hu, by omega, by omega, hframe.trans hframe'⟩

theorem tickTimer_of_zero {v : Byte} (h : v = 0) : tickTimer v = v := by
  rw [tickTimer, if_pos h, h]

theorem step_programEnded_fixed {s : State} {a : Word} (h : ProgramEnded a s) (hdt : s.dt = 0) (hst : s.st = 0)
    (hop : s.opcode.toNat = 0x1000 + a.toNat) : step s = .next s := by
  obtain ⟨w, hw, hstep⟩ := step_of_programEnded h
  obtain rfl : s.opcode = w := BitVec.eq_of_toNat_eq (hop.trans hw.symm)
  have same : setPc s.pc (tick (advance s.opcode s)) = setDt (tickTimer s.dt) (setSt (tickTimer s.st) s) := rfl
  rw [hstep, same, tickTimer_of_zero hdt, tickTimer_of_zero hst]
  rfl

/-- Settles O23: one step, any number of steps, and the fixed point. -/
theorem jumpToItselfOnlyTicks : Obligations.JumpToItselfOnlyTicks := by
  intro s a h
  obtain ⟨t, hstep, _, hop, hdt, hst, hframe⟩ := step_programEnded h
  exact ⟨⟨t, hstep, hop, hdt, hst, hframe⟩, fun n => run_programEnded n h, step_programEnded_fixed h⟩

end Sys2Proof.Machine
end
